-- ==== Sys2Proof/Word.lean ====
section
/-!
DEFINITION. The word types of the CHIP-8 core (R9, R31, R35, R70, R100): every value is an unsigned
bit vector of the width the spec gives it, and a register number is one of sixteen.
-/

namespace Sys2Proof

/-- A memory byte, a general register, a timer or an 8-bit immediate `kk` (R31, R43, R70, R101). -/
abbrev Byte := BitVec 8

/-- An instruction word, the program counter, the register I or a stack entry (R35, R36, R39, R100). -/
abbrev Word := BitVec 16

/-- A memory address 0x000..0xFFF, and the field `nnn` (R70, R101). -/
abbrev Addr := BitVec 12

/-- The number of a general register V0..VF: "every value of a register field is a valid register" (R31). -/
abbrev Reg := Fin 16

end Sys2Proof
end

