-- ==== Sys2Proof/Machine/Flags.lean ====
section
/-!
DEFINITION. The values that the flag register VF is given (R32, R170, R177 to R181, R241).
-/

namespace Sys2Proof.Machine

/-- A flag as VF holds it: 1 or 0. -/
def flagByte (c : Bool) : Byte := if c then 1 else 0

/-- The carry of 8xy4: "1 exactly when a + b > 255" (R177). -/
def carryFlag (a b : Byte) : Byte := flagByte (decide (255 < a.toNat + b.toNat))

/-- NOT borrow of a - b: 1 exactly when a >= b (R178; R180 with the operands exchanged). -/
def noBorrowFlag (a b : Byte) : Byte := flagByte (decide (b.toNat ≤ a.toNat))

/-- The bit SHR shifts out, "bit 0 of the old V[x]" (R179). -/
def shiftedOutRight (a : Byte) : Byte := flagByte (a.getLsbD 0)

/-- The bit SHL shifts out, "bit 7 of the old V[x]" (R181). -/
def shiftedOutLeft (a : Byte) : Byte := flagByte (a.getLsbD 7)

end Sys2Proof.Machine
end

