-- ==== Sys2Proof/Syntax.lean ====
section
/-!
DEFINITION. The 35 instruction forms of R105 (spec/opcode_table.json), one constructor each.
-/

namespace Sys2Proof

/-- An instruction, with the fields of its word (R101, R102) as operands. -/
inductive Instr where
  /-- 0000, R141 -/
  | nop
  /-- 00E0, R240 -/
  | cls
  /-- 00EE, R142 -/
  | ret
  /-- 1nnn, R143 -/
  | jp (nnn : Addr)
  /-- 2nnn, R144 -/
  | call (nnn : Addr)
  /-- 3xkk, R145 -/
  | seImm (x : Reg) (kk : Byte)
  /-- 4xkk, R146 -/
  | sneImm (x : Reg) (kk : Byte)
  /-- 5xy0, R147 -/
  | seReg (x y : Reg)
  /-- 6xkk, R171 -/
  | ldImm (x : Reg) (kk : Byte)
  /-- 7xkk, R172 -/
  | addImm (x : Reg) (kk : Byte)
  /-- 8xy0, R173 -/
  | ldReg (x y : Reg)
  /-- 8xy1, R174 -/
  | orReg (x y : Reg)
  /-- 8xy2, R175 -/
  | andReg (x y : Reg)
  /-- 8xy3, R176 -/
  | xorReg (x y : Reg)
  /-- 8xy4, R177 -/
  | addReg (x y : Reg)
  /-- 8xy5, R178 -/
  | subReg (x y : Reg)
  /-- 8xy6, R179; y is "decoded but ignored" and kept so that no bit of the word is lost -/
  | shr (x y : Reg)
  /-- 8xy7, R180 -/
  | subn (x y : Reg)
  /-- 8xyE, R181; y is ignored -/
  | shl (x y : Reg)
  /-- 9xy0, R148 -/
  | sneReg (x y : Reg)
  /-- Annn, R210 -/
  | ldI (nnn : Addr)
  /-- Bnnn, R149 -/
  | jpV0 (nnn : Addr)
  /-- Cxkk, R182 -/
  | rnd (x : Reg) (kk : Byte)
  /-- Dxyn, R241; n is a row count 0..15 -/
  | drw (x y : Reg) (n : Fin 16)
  /-- Ex9E, R261 -/
  | skp (x : Reg)
  /-- ExA1, R262 -/
  | sknp (x : Reg)
  /-- Fx07, R263 -/
  | ldVxDT (x : Reg)
  /-- Fx0A, R264 -/
  | ldVxK (x : Reg)
  /-- Fx15, R265 -/
  | ldDTVx (x : Reg)
  /-- Fx18, R266 -/
  | ldSTVx (x : Reg)
  /-- Fx1E, R211 -/
  | addI (x : Reg)
  /-- Fx29, R212 -/
  | ldF (x : Reg)
  /-- Fx33, R213 -/
  | ldB (x : Reg)
  /-- Fx55, R214 -/
  | storeRegs (x : Reg)
  /-- Fx65, R215 -/
  | loadRegs (x : Reg)
  deriving DecidableEq, Repr

end Sys2Proof
end

