-- ==== Sys2Proof/Config.lean ====
section
/-!
DEFINITION. What is fixed for one machine (the sizes and the parameters of R6), the operations through
which the host drives the block (R50), and the one free value of the spec, the random byte (R313).
-/

namespace Sys2Proof

/-- MEM_SIZE: bytes of memory (R6, R70). -/
def Config.memSize : Nat := 4096

/-- PROG_BASE: load address of a program and reset value of the PC (R6, R341). -/
def Config.progBase : Nat := 0x200

/-- MAX_ROM: the longest program `load_program` accepts, 4096 - 0x200 bytes (R6, R342). -/
def Config.maxRom : Nat := 3584

/-- FONT_BYTES: the size of the font table at address 0x000 (R6, R73). -/
def Config.fontBytes : Nat := 80

/-- GLYPH_BYTES: bytes per glyph (R6, R212). -/
def Config.glyphBytes : Nat := 5

/-- STACK_DEPTH: the capacity of the call stack (R6, R39). -/
def Config.stackDepth : Nat := 16

/-- STACK_POLICY (R6, D2): what a push onto a full stack and a pop from an empty one do.
`fault` raises StackOverflow or StackUnderflow, `reference` is the source's silent wrap and clamp (R40, R41). -/
inductive StackPolicy where
  | fault
  | reference
  deriving DecidableEq, Repr

/-- The parameters of the block that R6 calls arguments of the model: the font table (R73, D10) and the stack
policy (R40, R41, D2). They are fixed for a machine: no operation changes them (assumption log 3). -/
structure Params where
  font : Vector Byte 80
  stackPolicy : StackPolicy
  deriving DecidableEq, Repr

/-- The operations the host drives the block through (R50). `status` and `sound_expired` are outputs and no operations.
The key number of `setKey` is a Nat because a host may send one outside 0..15, which is refused (R311, D26). -/
inductive HostOp where
  | create
  | loadProgram (bytes : List Byte)
  | cycle
  | tick
  | setKey (k : Nat) (pressed : Bool)
  | readFramebuffer
  deriving DecidableEq, Repr

/-- The byte that the n-th execution of Cxkk draws (R182, R313, D17). A FREE VALUE: it has no body, so that a
claim about it holds for every sequence of bytes the random source could supply (assumption log 1). -/
opaque Config.randomByte : Nat → Byte

end Sys2Proof
end

