-- ==== Sys2Proof/Machine/Defaults.lean ====
section
/-!
DEFINITION. The default values of the spec's parameters (R6) and the constants of reset. They stand here, and not
in State.lean, so that a test that shows one wrong can have it mended.
-/

namespace Sys2Proof.Machine

/-- The default FONT table of R73, digits 0 to 7. PRESUMED: the spec marks the bytes as general knowledge (G1, D10; log 4). -/
def fontDigits0to7 : List Byte :=
  [0xF0, 0x90, 0x90, 0x90, 0xF0] ++ [0x20, 0x60, 0x20, 0x20, 0x70] ++
  [0xF0, 0x10, 0xF0, 0x80, 0xF0] ++ [0xF0, 0x10, 0xF0, 0x10, 0xF0] ++
  [0x90, 0x90, 0xF0, 0x10, 0x10] ++ [0xF0, 0x80, 0xF0, 0x10, 0xF0] ++
  [0xF0, 0x80, 0xF0, 0x90, 0xF0] ++ [0xF0, 0x10, 0x20, 0x40, 0x40]

/-- The default FONT table of R73, digits 8 to F (PRESUMED, log 4). -/
def fontDigits8toF : List Byte :=
  [0xF0, 0x90, 0xF0, 0x90, 0xF0] ++ [0xF0, 0x90, 0xF0, 0x10, 0xF0] ++
  [0xF0, 0x90, 0xF0, 0x90, 0x90] ++ [0xE0, 0x90, 0xE0, 0x90, 0xE0] ++
  [0xF0, 0x80, 0x80, 0x80, 0xF0] ++ [0xE0, 0x90, 0x90, 0x90, 0xE0] ++
  [0xF0, 0x80, 0xF0, 0x80, 0xF0] ++ [0xF0, 0x80, 0xF0, 0x80, 0x80]

/-- The default of the parameter FONT (R73), glyph d at d * 5. -/
def defaultFont : Vector Byte 80 := ⟨(fontDigits0to7 ++ fontDigits8toF).toArray, rfl⟩

/-- The default of the parameter STACK_POLICY is `Fault` (R6, D2). DESIGN CHOICE of the spec (log 5). -/
def defaultStackPolicy : StackPolicy := .fault

/-- The default parameters (R6). -/
def defaultParams : Params := { font := defaultFont, stackPolicy := defaultStackPolicy }

/-- The default of the parameter CYCLES_PER_TICK, of the reference host's schedule only (R6, R310). -/
def defaultCyclesPerTick : Nat := 10

/-- The reset vector (R341). -/
def resetPc : Word := 0x200

end Sys2Proof.Machine
end

