-- ==== Sys2Proof/Machine/State.lean ====
section
/-!
DEFINITION. The state of the block (R30), one field per part, the reasons a step can stop without a
next state, and the state after `create` (R52, R340).
-/

namespace Sys2Proof.Machine

/-- A fatal condition F with the info it records (R300). It is no outcome of a step: raising one is a NEXT state
whose `status` is `halted` (R302). -/
inductive Fatal where
  /-- code 1: the fetch at `pc` would pass 0xFFF (R75) -/
  | outOfBounds (pc : Word)
  /-- code 2: the word matches no row of the opcode map (R106) -/
  | unimplementedOpcode (w : Word)
  /-- code 3: 2nnn with 16 frames under the policy `fault`; the return address that could not be pushed (R40) -/
  | stackOverflow (ret : Word)
  /-- code 4: 00EE with no frame under the policy `fault` (R41) -/
  | stackUnderflow
  /-- code 5: Ex9E or ExA1 with V[x] >= 16; the value of V[x] (R260) -/
  | keyIndexOutOfRange (v : Byte)
  /-- code 6: `load_program` of more than 3584 bytes; the length (R342) -/
  | capacityError (length : Nat)
  deriving DecidableEq, Repr

/-- `status`: `Running` or `Halted(F, info)` (R46). -/
inductive Status where
  | running
  | halted (f : Fatal)
  deriving DecidableEq, Repr

/-- The faults with which a step stops the MODEL. There is none: every fatal condition of the spec is described as
a state the block goes to (R302 to R304), so a step takes it as a next state, and no other condition faults (R301).
The type has no constructor, so that nothing can raise one (safe; assumption log 9). -/
inductive Fault where
  deriving DecidableEq, Repr

/-- The refusals: host operations that the spec gives no move. -/
inductive Refusal where
  /-- raised by exec for an instruction without a meaning; no arm raises it (safe) -/
  | notModelled (mnemonic : String)
  /-- raised by `load_program` when the block is halted or a load has been accepted since `create`:
  "it has no move in the model" (R343, R304, D21). Safe: the model stops where the source is undefined. -/
  | loadRefused
  /-- raised by `set_key` with a key outside 0..15: "not a valid operation, and a model refuses it" (R311, D26). Safe. -/
  | invalidKey (k : Nat)
  deriving DecidableEq, Repr

/-- The outcome of an operation: a next state or one of the refusals. -/
abbrev Result (σ : Type) := Host.Outcome σ Fault Refusal

/-- The framebuffer, `fb[x][y]` with column x and row y (R45); stored by columns, which cannot be observed (U7, log 26). -/
abbrev Framebuffer := Vector (Vector Bool 32) 64

/-- The state of the block. The fields up to `loaded` are the spec's (R30); the last four are the model's own. -/
structure State where
  /-- V0..VF; VF is also the flag register (R31, R32) -/
  v : Vector Byte 16
  /-- the register I (R35) -/
  regI : Word
  /-- the program counter (R36) -/
  pc : Word
  /-- the call stack's entries (R39) -/
  stack : Vector Word 16
  /-- the number of occupied entries, 0..16 (R39) -/
  sp : Fin 17
  /-- the delay timer DT (R43) -/
  dt : Byte
  /-- the sound timer ST (R43) -/
  st : Byte
  /-- the keyboard latch, true means pressed (R44) -/
  key : Vector Bool 16
  /-- the framebuffer, true means lit (R45) -/
  fb : Framebuffer
  /-- memory: the bytes that differ from the contents at create, by rising address (R70; Machine/Memory.lean, log 8) -/
  mem : List Host.Cell
  /-- `Running` or `Halted` (R46) -/
  status : Status
  /-- a program load has been accepted since `create` (R47) -/
  loaded : Bool
  /-- the model's own: the parameters FONT and STACK_POLICY, which no operation changes (R6, log 3) -/
  params : Params
  /-- the model's own: how many random bytes have been drawn, the index of the next (R313, log 1, 2) -/
  draws : Nat
  /-- the model's own: how many times the event `sound_expired` was raised since `create` (R309, log 7) -/
  soundEvents : Nat
  /-- the model's own: the operations the host issues next, first one first; when it is empty the host issues
  a `cycle` (R50, R310, log 6) -/
  schedule : List HostOp
  deriving DecidableEq, Repr

/-- The state right after `create()` (R52, R340), with the default parameters. Memory lists nothing: it holds the
font at 0x000-0x04F and zero elsewhere. The model's own fields are zero and empty (log 2, 6, 7). -/
def State.reset : State :=
  { v := Vector.replicate 16 0
    regI := 0
    pc := resetPc
    stack := Vector.replicate 16 0
    sp := 0
    dt := 0
    st := 0
    key := Vector.replicate 16 false
    fb := Vector.replicate 64 (Vector.replicate 32 false)
    mem := []
    status := .running
    loaded := false
    params := defaultParams
    draws := 0
    soundEvents := 0
    schedule := [] }

end Sys2Proof.Machine
end

