-- ==== Sys2Proof/Machine/Memory.lean ====
section
/-!
DEFINITION. Memory (R70, R71, R73): a list of (address, byte) cells in one canonical form. What an unlisted address
reads as is the contents at create: the font, then zero.
-/

namespace Sys2Proof.Machine

/-- What an address that no cell lists reads as: its contents at create, the FONT byte at 0x000-0x04F and
zero above (R71, R73, R340). -/
def unlistedByte (font : Vector Byte 80) (a : Nat) : Byte :=
  if h : a < 80 then font.get ⟨a, h⟩ else 0

/-- The byte at an address: the first cell that lists it, else what create put there. A read changes nothing (R78). -/
def Memory.read (font : Vector Byte 80) : List Host.Cell → Nat → Byte
  | [], a => unlistedByte font a
  | (b, u) :: m, a => if b = a then u else Memory.read font m a

/-- Put a cell in its place by rising address. -/
def Memory.insert (a : Nat) (b : Byte) : List Host.Cell → List Host.Cell
  | [] => [(a, b)]
  | (c, u) :: m => if a < c then (a, b) :: (c, u) :: m else (c, u) :: Memory.insert a b m

/-- Take the cells of an address out. -/
def Memory.erase (a : Nat) : List Host.Cell → List Host.Cell
  | [] => []
  | (c, u) :: m => if c = a then Memory.erase a m else (c, u) :: Memory.erase a m

/-- Write a byte at an address (R76). Writing what an unlisted address reads as removes the cell, so equal memories
are equal lists. No address is protected (R72). -/
def Memory.write (font : Vector Byte 80) (m : List Host.Cell) (a : Nat) (b : Byte) : List Host.Cell :=
  if b = unlistedByte font a then Memory.erase a m else Memory.insert a b (Memory.erase a m)

/-- Copy bytes to a, a+1, ... (the copy of `load_program`, R342). The highest address is written first; the
addresses differ, so the order cannot be observed (R79, log 28). -/
def Memory.copy (font : Vector Byte 80) (m : List Host.Cell) : Nat → List Byte → List Host.Cell
  | _, [] => m
  | a, b :: bs => Memory.write font (Memory.copy font m (a + 1) bs) a b

/-- Every cell's address is above `low`, and rises. -/
def Memory.rising : Nat → List Host.Cell → Bool
  | _, [] => true
  | low, (a, _) :: m => decide (low ≤ a) && Memory.rising (a + 1) m

/-- The canonical form: addresses strictly rising and inside the 4096 bytes, and no cell that holds what its address
would read as unlisted. -/
def Memory.wf (font : Vector Byte 80) (m : List Host.Cell) : Bool :=
  Memory.rising 0 m && m.all (fun c => decide (c.1 < Config.memSize) && c.2 != unlistedByte font c.1)

end Sys2Proof.Machine
end

