-- ==== Sys2Proof/Machine/Ops.lean ====
section
/-!
DEFINITION. The named operations over the state (the primitives of R10): registers, the call stack, memory, the fetch,
the skip, and taking a fatal condition.
-/

namespace Sys2Proof.Machine

/-! ### Registers (R31, R35, R36, R43) -/

/-- `V[r]` (R31). -/
def State.readV (s : State) (r : Reg) : Byte := s.v.get r

/-- `V[r] <- b` (R31): no register is hardwired. -/
def State.writeV (s : State) (r : Reg) (b : Byte) : State := { s with v := s.v.set r.val b r.isLt }

/-- The flag write `V[0xF] <- b` (R32). -/
def State.writeVF (s : State) (b : Byte) : State := s.writeV 0xF b

/-- A result and then the flag: "the flag write is the last write, so VF ends up holding the flag" (R33, R11). -/
def State.writeWithFlag (s : State) (x : Reg) (result flag : Byte) : State := (s.writeV x result).writeVF flag

/-- `I <- w` (R35). -/
def State.writeI (s : State) (w : Word) : State := { s with regI := w }

/-- `pc <- target`: a target is not checked when it is written (R150). -/
def State.jump (s : State) (target : Word) : State := { s with pc := target }

/-- `Skip()` when the condition holds; "a skip that is not taken writes nothing" (R140). -/
def State.skipIf (s : State) (c : Bool) : State := if c then { s with pc := s.pc + 2 } else s

/-- `DT <- b` (R265). -/
def State.writeDT (s : State) (b : Byte) : State := { s with dt := b }

/-- `ST <- b` (R266): no event is raised (D15). -/
def State.writeST (s : State) (b : Byte) : State := { s with st := b }

/-! ### Memory (R70, R76) -/

/-- The byte at an address. -/
def State.readByte (s : State) (a : Addr) : Byte := Memory.read s.params.font s.mem a.toNat

/-- Write the byte at an address. -/
def State.writeByte (s : State) (a : Addr) (b : Byte) : State :=
  { s with mem := Memory.write s.params.font s.mem a.toNat b }

/-- The address of the byte at I plus an offset: `(I + k) mod 4096` (R76, D4). -/
def State.dataAddr (s : State) (k : Nat) : Addr := BitVec.ofNat 12 (s.regI.toNat + k)

/-- `MemRead(I + k, 1)` (R76). -/
def State.readData (s : State) (k : Nat) : Byte := s.readByte (s.dataAddr k)

/-- `MemWrite(I + k, 1, b)` (R76). -/
def State.writeData (s : State) (k : Nat) (b : Byte) : State := s.writeByte (s.dataAddr k) b

/-- Write bytes at I + k, I + k + 1, ..., in that order (R213, R214). -/
def State.writeDataFrom (s : State) (k : Nat) : List Byte → State
  | [] => s
  | b :: bs => (s.writeData k b).writeDataFrom (k + 1) bs

/-! ### Taking a fatal condition (R302, R303) -/

/-- `raise F(info)`: `status <- Halted(F, info)` and nothing else (R302). There is no handler and no return from it: only
`create` leaves the halted state (R304). -/
def State.raise (s : State) (f : Fatal) : State := { s with status := .halted f }

/-- End an instruction: with its effect, or by taking the fatal condition in the state before its writes (R303, R109). -/
def finish (s : State) : Except Fatal State → Result State
  | .ok t => .next t
  | .error f => .next (s.raise f)

/-- The spec's number of a fatal condition (R300). -/
def Fatal.code : Fatal → Nat
  | .outOfBounds _ => 1
  | .unimplementedOpcode _ => 2
  | .stackOverflow _ => 3
  | .stackUnderflow => 4
  | .keyIndexOutOfRange _ => 5
  | .capacityError _ => 6

/-! ### The call stack (R39 to R42) -/

/-- `Push(a)` (R40). -/
def State.push (s : State) (a : Word) : Except Fatal State :=
  if h : s.sp.val < 16 then
    .ok { s with stack := s.stack.set s.sp.val a h, sp := ⟨s.sp.val + 1, by omega⟩ }
  else match s.params.stackPolicy with
    | .fault => .error (.stackOverflow a)
    | .reference => .ok { s with stack := s.stack.set 0 a, sp := 1 }

/-- `Pop()`: the popped address and the state after it (R41). The entry read is not cleared (R42). -/
def State.pop (s : State) : Except Fatal (Word × State) :=
  if h : 0 < s.sp.val then
    .ok (s.stack.get ⟨s.sp.val - 1, by omega⟩, { s with sp := ⟨s.sp.val - 1, by omega⟩ })
  else match s.params.stackPolicy with
    | .fault => .error .stackUnderflow
    | .reference => .ok (s.stack.get 0, { s with sp := 0 })

/-! ### The fetch (R74, R75) -/

/-- The instruction word at an address, big-endian (R74). -/
def State.wordAt (s : State) (a : Nat) : Word :=
  joinBytes (s.readByte (BitVec.ofNat 12 a)) (s.readByte (BitVec.ofNat 12 (a + 1)))

/-- `Fetch()`: the word at pc and the state with pc advanced by 2, or OutOfBounds with nothing changed (R75). -/
def State.fetch (s : State) : Except Fatal (Word × State) :=
  if Config.memSize ≤ s.pc.toNat + 1 then .error (.outOfBounds s.pc)
  else .ok (s.wordAt s.pc.toNat, { s with pc := s.pc + 2 })

end Sys2Proof.Machine
end

