-- ==== Sys2Proof/Machine/Operands.lean ====
section
/-!
DEFINITION. The operand forms (R101, R103): an immediate zero-extended to 16 bits, a register zero-extended, the
key cell a register names, the pressed key, a glyph's address, the decimal digits of a register, the
registers stored and loaded, the random byte.
-/

namespace Sys2Proof.Machine

/-- `zext_16(nnn)` (R9, R103). -/
def zextAddr (nnn : Addr) : Word := nnn.zeroExtend 16

/-- `zext_16(V[x])` (R9). -/
def zextByte (b : Byte) : Word := b.zeroExtend 16

/-- `KeyAt(v)`: the latch cell of a value, or KeyIndexOutOfRange from 16 up (R260, D7). -/
def State.keyAt (s : State) (v : Byte) : Except Fatal Bool :=
  if h : v.toNat < 16 then .ok (s.key.get ⟨v.toNat, h⟩) else .error (.keyIndexOutOfRange v)

/-- The lowest pressed key from k up, looking at the next `fuel` keys. -/
def State.pressedFrom (s : State) : Nat → Nat → Option Nat
  | 0, _ => none
  | fuel + 1, k => if s.key.get (Fin.ofNat 16 k) then some k else s.pressedFrom fuel (k + 1)

/-- `min { k | key[k] = true }`, none when every key is released (R264, D8). -/
def State.lowestKey (s : State) : Option Nat := s.pressedFrom 16 0

/-- The address of the glyph of V[x]: `zext_16(V[x]) * 5`, with no mask on V[x] (R212). -/
def glyphAddr (b : Byte) : Word := BitVec.ofNat 16 (b.toNat * Config.glyphBytes)

/-- The hundreds, tens and ones digit of a byte (R213). -/
def decimalDigits (b : Byte) : List Byte :=
  [BitVec.ofNat 8 (b.toNat / 100), BitVec.ofNat 8 (b.toNat / 10 % 10), BitVec.ofNat 8 (b.toNat % 10)]

/-- V0, ..., V[x], the bytes that Fx55 stores (R214). -/
def State.regsUpTo (s : State) (x : Reg) : List Byte := (List.range (x.val + 1)).map (fun k => s.readV (Fin.ofNat 16 k))

/-- `V[k] <- MemRead(I + k, 1)` for the first n registers, in rising order (R215). -/
def State.loadFirst (s : State) : Nat → State
  | 0 => s
  | n + 1 => (s.loadFirst n).writeV (Fin.ofNat 16 n) (s.readData n)

/-- `Rand()`: the next random byte, once per execution (R182, R313). FREE VALUE (log 1). -/
def State.randomByte (s : State) : Byte := Config.randomByte s.draws

/-- The state after a byte has been drawn (log 2). -/
def State.countDraw (s : State) : State := { s with draws := s.draws + 1 }

end Sys2Proof.Machine
end

