-- ==== Sys2Proof/Machine/Alu.lean ====
section
/-!
DEFINITION. The register and ALU instructions (41_alu.md): 8 bits wide, wrapping, flags only where R32 names them (R170, C1).
-/

namespace Sys2Proof.Machine

/-- LD Vx, kk (R171). -/
def execLdImm (x : Reg) (kk : Byte) (s : State) : Result State := .next (s.writeV x kk)

/-- ADD Vx, kk: modulo 256, no flag (R172). -/
def execAddImm (x : Reg) (kk : Byte) (s : State) : Result State := .next (s.writeV x (s.readV x + kk))

/-- LD Vx, Vy (R173). -/
def execLdReg (x y : Reg) (s : State) : Result State := .next (s.writeV x (s.readV y))

/-- OR Vx, Vy: VF is not reset (R174). -/
def execOrReg (x y : Reg) (s : State) : Result State := .next (s.writeV x (s.readV x ||| s.readV y))

/-- AND Vx, Vy: VF is not reset (R175). -/
def execAndReg (x y : Reg) (s : State) : Result State := .next (s.writeV x (s.readV x &&& s.readV y))

/-- XOR Vx, Vy: VF is not reset (R176). -/
def execXorReg (x y : Reg) (s : State) : Result State := .next (s.writeV x (s.readV x ^^^ s.readV y))

/-- ADD Vx, Vy: VF = carry (R177). -/
def execAddReg (x y : Reg) (s : State) : Result State :=
  .next (s.writeWithFlag x (s.readV x + s.readV y) (carryFlag (s.readV x) (s.readV y)))

/-- SUB Vx, Vy: VF = NOT borrow (R178). -/
def execSubReg (x y : Reg) (s : State) : Result State :=
  .next (s.writeWithFlag x (s.readV x - s.readV y) (noBorrowFlag (s.readV x) (s.readV y)))

/-- SHR Vx: "the y field is decoded but ignored" (R179). -/
def execShr (x _y : Reg) (s : State) : Result State :=
  .next (s.writeWithFlag x (s.readV x >>> 1) (shiftedOutRight (s.readV x)))

/-- SUBN Vx, Vy: V[y] - V[x], VF = NOT borrow (R180). -/
def execSubn (x y : Reg) (s : State) : Result State :=
  .next (s.writeWithFlag x (s.readV y - s.readV x) (noBorrowFlag (s.readV y) (s.readV x)))

/-- SHL Vx: "the y field is ignored" (R181). -/
def execShl (x _y : Reg) (s : State) : Result State :=
  .next (s.writeWithFlag x (s.readV x <<< 1) (shiftedOutLeft (s.readV x)))

/-- RND Vx, kk: `r <- Rand() ; V[x] <- r & kk`, one draw per execution (R182). -/
def execRnd (x : Reg) (kk : Byte) (s : State) : Result State :=
  .next (s.countDraw.writeV x (s.randomByte &&& kk))

end Sys2Proof.Machine
end

