-- ==== Sys2Proof/Machine/Control.lean ====
section
/-!
DEFINITION. The control flow instructions (40_control_flow.md). In every meaning pc is already the instruction's own
address plus 2 (R36).
-/

namespace Sys2Proof.Machine

/-- NOP: "nothing happens beyond the fetch's pc advance" (R141). -/
def execNop (s : State) : Result State := .next s

/-- RET: `pc <- Pop()` (R142). -/
def execRet (s : State) : Result State := finish s (s.pop.map (fun p => p.2.jump p.1))

/-- JP nnn (R143). -/
def execJp (nnn : Addr) (s : State) : Result State := .next (s.jump (zextAddr nnn))

/-- CALL nnn: `Push(pc) ; pc <- zext_16(nnn)` (R144). -/
def execCall (nnn : Addr) (s : State) : Result State := finish s ((s.push s.pc).map (·.jump (zextAddr nnn)))

/-- SE Vx, kk: skip when V[x] = kk (R145). -/
def execSeImm (x : Reg) (kk : Byte) (s : State) : Result State := .next (s.skipIf (s.readV x == kk))

/-- SNE Vx, kk: skip when V[x] != kk (R146). -/
def execSneImm (x : Reg) (kk : Byte) (s : State) : Result State := .next (s.skipIf (s.readV x != kk))

/-- SE Vx, Vy: skip when V[x] = V[y] (R147). -/
def execSeReg (x y : Reg) (s : State) : Result State := .next (s.skipIf (s.readV x == s.readV y))

/-- SNE Vx, Vy: skip when V[x] != V[y] (R148). -/
def execSneReg (x y : Reg) (s : State) : Result State := .next (s.skipIf (s.readV x != s.readV y))

/-- JP V0, nnn: `pc <- trunc_16(zext_16(nnn) + V[0])`, not reduced modulo 4096 (R149). -/
def execJpV0 (nnn : Addr) (s : State) : Result State := .next (s.jump (zextAddr nnn + zextByte (s.readV 0)))

end Sys2Proof.Machine
end

