-- ==== Sys2Proof/Machine/Display.lean ====
section
/-!
DEFINITION. The display instructions (43_display.md): clearing the framebuffer and drawing a sprite by XOR.
-/

namespace Sys2Proof.Machine

/-- The framebuffer with every cell unlit (R240). -/
def blankFramebuffer : Framebuffer := Vector.replicate 64 (Vector.replicate 32 false)

/-- `fb[px][py]` (R45). -/
def fbCell (fb : Framebuffer) (px : Fin 64) (py : Fin 32) : Bool := (fb.get px).get py

/-- `fb[px][py] <- not fb[px][py]`: "a cell is never set true directly; it only toggles" (R45). -/
def fbToggle (fb : Framebuffer) (px : Fin 64) (py : Fin 32) : Framebuffer :=
  fb.set px.val ((fb.get px).set py.val (!fbCell fb px py) py.isLt) px.isLt

/-- The column of a sprite's column offset: `(ox + c) mod 64` (R241). -/
def spriteColumn (ox : Byte) (c : Nat) : Fin 64 := Fin.ofNat 64 (ox.toNat + c)

/-- The row of a sprite's row offset: `(oy + r) mod 32` (R241). -/
def spriteRow (oy : Byte) (r : Nat) : Fin 32 := Fin.ofNat 32 (oy.toNat + r)

/-- The sprite bit of a column: "column c of that row is bit 7 - c of the byte" (R241, D9). -/
def spriteBit (row : Byte) (c : Nat) : Bool := row.getLsbD (7 - c)

/-- Toggle one cell where the sprite bit is 1, noting whether it was lit; the pair is the framebuffer and `collided` (R241). -/
def drawCell (bit : Bool) (px : Fin 64) (py : Fin 32) (d : Framebuffer × Bool) : Framebuffer × Bool :=
  if bit then (fbToggle d.1 px py, d.2 || fbCell d.1 px py) else d

/-- The first n columns of one sprite row, from the left (R241). -/
def drawColumns (row ox : Byte) (py : Fin 32) : Nat → Framebuffer × Bool → Framebuffer × Bool
  | 0, d => d
  | n + 1, d => drawCell (spriteBit row n) (spriteColumn ox n) py (drawColumns row ox py n d)

/-- The first n rows of the sprite at I, from the top (R241). -/
def State.drawRows (s : State) (ox oy : Byte) : Nat → Framebuffer × Bool
  | 0 => (s.fb, false)
  | n + 1 => drawColumns (s.readData n) ox (spriteRow oy n) 8 (s.drawRows ox oy n)

/-- The framebuffer after a draw, then the flag in VF: "VF is always written, including when n = 0" (R241). -/
def State.setDrawn (s : State) (d : Framebuffer × Bool) : State := { s with fb := d.1 }.writeVF (flagByte d.2)

/-- CLS: every cell false; VF is not written (R240). -/
def execCls (s : State) : Result State := .next { s with fb := blankFramebuffer }

/-- DRW Vx, Vy, n: the coordinates are read before VF is written (R241, R33). -/
def execDrw (x y : Reg) (n : Fin 16) (s : State) : Result State :=
  .next (s.setDrawn (s.drawRows (s.readV x) (s.readV y) n.val))

end Sys2Proof.Machine
end

