-- ==== Sys2Proof/Machine/IndexMemory.lean ====
section
/-!
DEFINITION. The index register and memory instructions (42_index_memory.md). None writes VF as a flag; the last three leave I
unchanged (R35).
-/

namespace Sys2Proof.Machine

/-- LD I, nnn: "the upper 4 bits of I become 0" (R210). -/
def execLdI (nnn : Addr) (s : State) : Result State := .next (s.writeI (zextAddr nnn))

/-- ADD I, Vx: modulo 2^16, no flag (R211). -/
def execAddI (x : Reg) (s : State) : Result State := .next (s.writeI (s.regI + zextByte (s.readV x)))

/-- LD F, Vx: the address of a glyph, V[x] not masked (R212). -/
def execLdF (x : Reg) (s : State) : Result State := .next (s.writeI (glyphAddr (s.readV x)))

/-- LD B, Vx: the three decimal digits at I, I+1, I+2 (R213). -/
def execLdB (x : Reg) (s : State) : Result State := .next (s.writeDataFrom 0 (decimalDigits (s.readV x)))

/-- LD [I], Vx: `for k in 0 .. x: MemWrite(I + k, 1, V[k])` (R214). -/
def execStoreRegs (x : Reg) (s : State) : Result State := .next (s.writeDataFrom 0 (s.regsUpTo x))

/-- LD Vx, [I]: `for k in 0 .. x: V[k] <- MemRead(I + k, 1)` (R215). -/
def execLoadRegs (x : Reg) (s : State) : Result State := .next (s.loadFirst (x.val + 1))

end Sys2Proof.Machine
end

