-- ==== Sys2Proof/Machine/KeysTimers.lean ====
section
/-!
DEFINITION. The keyboard and timer instructions (44_keys_timers.md). None writes the keyboard latch (R44).
-/

namespace Sys2Proof.Machine

/-- SKP Vx: skip when the key is pressed; KeyIndexOutOfRange from 16 up (R261, R260). -/
def execSkp (x : Reg) (s : State) : Result State := finish s ((s.keyAt (s.readV x)).map (fun down => s.skipIf down))

/-- SKNP Vx: skip when the key is not pressed; KeyIndexOutOfRange from 16 up (R262, R260). -/
def execSknp (x : Reg) (s : State) : Result State := finish s ((s.keyAt (s.readV x)).map (fun down => s.skipIf (!down)))

/-- LD Vx, DT (R263). -/
def execLdVxDT (x : Reg) (s : State) : Result State := .next (s.writeV x s.dt)

/-- LD Vx, K: back to this instruction while no key is pressed, else the lowest pressed key (R264, D8). -/
def execLdVxK (x : Reg) (s : State) : Result State :=
  match s.lowestKey with
  | none => .next (s.jump (s.pc - 2))
  | some k => .next (s.writeV x (BitVec.ofNat 8 k))

/-- LD DT, Vx (R265). -/
def execLdDTVx (x : Reg) (s : State) : Result State := .next (s.writeDT (s.readV x))

/-- LD ST, Vx: never raises `sound_expired` (R266, D15). -/
def execLdSTVx (x : Reg) (s : State) : Result State := .next (s.writeST (s.readV x))

end Sys2Proof.Machine
end

