-- ==== Sys2Proof/Machine/HostOps.lean ====
section
/-!
DEFINITION. The operations the host drives the block through (R50): create, load_program, cycle, tick, set_key and
the framebuffer read; and the host's schedule (R310, R346).
-/

namespace Sys2Proof.Machine

/-- `create()`: "it discards all previous state" (R340). The parameters stay, as they are the machine's and no
state; the random source and the host's schedule go on (log 13). -/
def State.create (s : State) : State :=
  { State.reset with params := s.params, draws := s.draws, schedule := s.schedule }

/-- `load_program(bytes)`: refused when halted or loaded, CapacityError when too long, else the copy to 0x200 (R342, R343). -/
def State.loadProgram (s : State) (bytes : List Byte) : Result State :=
  match s.status, s.loaded with
  | .running, false =>
    if Config.maxRom < bytes.length then .next (s.raise (.capacityError bytes.length))
    else .next { s with mem := Memory.copy s.params.font s.mem Config.progBase bytes, loaded := true }
  | .running, true => .refused .loadRefused
  | .halted _, _ => .refused .loadRefused

/-- `cycle()`: fetch, decode, execute; no effect when halted (R108, R304, R305). -/
def State.cycle (s : State) : Result State :=
  match s.status with
  | .halted _ => .next s
  | .running =>
    match s.fetch with
    | .error f => .next (s.raise f)
    | .ok (w, t) =>
      match decode w with
      | .error _ => .next (t.raise (.unimplementedOpcode w))
      | .ok i => exec i t

/-- One step of a timer: down by 1, stopping at 0 (R43, R308). -/
def countDown (b : Byte) : Byte := if b = 0 then 0 else b - 1

/-- `tick()`: both timers count down, and the event `sound_expired` is raised when ST goes from 1 to 0; nothing when halted
(R308, R309, R304). -/
def State.tick (s : State) : State :=
  match s.status with
  | .halted _ => s
  | .running =>
    { s with
      dt := countDown s.dt
      st := countDown s.st
      soundEvents := if s.st = 1 then s.soundEvents + 1 else s.soundEvents }

/-- `set_key(k, pressed)`: `key[k] <- pressed`, also when halted; refused outside 0..15 (R311, R304). -/
def State.setKey (s : State) (k : Nat) (pressed : Bool) : Result State :=
  if h : k < 16 then .next { s with key := s.key.set k pressed h } else .refused (.invalidKey k)

/-- The framebuffer read: what the host is given, the whole grid (R312). -/
def State.framebufferRead (s : State) : Framebuffer := s.fb

/-- The status read: what the host is given (R302, R50). -/
def State.statusRead (s : State) : Status := s.status

/-- One operation of the host (R50). A framebuffer read changes nothing (R312). -/
def operate (op : HostOp) (s : State) : Result State :=
  match op with
  | .create => .next s.create
  | .loadProgram bytes => s.loadProgram bytes
  | .cycle => s.cycle
  | .tick => .next s.tick
  | .setKey k pressed => s.setKey k pressed
  | .readFramebuffer => .next s

/-- The operation the host issues next: the first of its schedule, a `cycle` when there is none (log 6). -/
def State.nextOp (s : State) : HostOp := s.schedule.headD .cycle

/-- The state with that operation taken off the schedule. -/
def State.takeOp (s : State) : State := { s with schedule := s.schedule.tail }

/-- The reference host's frame: n cycles, one tick, one framebuffer read (R346, R310; n is CYCLES_PER_TICK). -/
def referenceFrame (n : Nat) : List HostOp := List.replicate n .cycle ++ [.tick, .readFramebuffer]

/-- The first pc at or after which the fetch of a placed instruction can succeed: pc itself, or the reset vector where a fetch
at pc would be out of bounds (used by `State.withFetchWord`, log 12). -/
def State.placePc (s : State) : Word := if Config.memSize ≤ s.pc.toNat + 1 then resetPc else s.pc

/-- The schedule with a cycle first, unchanged where it is empty and a cycle comes anyway (log 6, 12). -/
def cycleFirst : List HostOp → List HostOp
  | [] => []
  | op :: ops => .cycle :: op :: ops

/-- The state with a word placed at the pc, big-endian, so that the next operation is a cycle that fetches it (log 12). -/
def State.placeWord (s : State) (w : Word) : State :=
  { s with
    pc := s.placePc
    mem := Memory.copy s.params.font s.mem s.placePc.toNat (wordBytes w)
    status := .running
    schedule := cycleFirst s.schedule }

end Sys2Proof.Machine
end

