-- ==== Sys2Proof/Machine/Step.lean ====
section
/-!
DEFINITION. One step: the host's next operation runs to completion (R50, R5). With an empty schedule a step is a `cycle`.
-/

namespace Sys2Proof.Machine

/-- Take the host's next operation off the schedule and run it (R50, log 6). -/
def step (s : State) : Host.Outcome State Fault Refusal := operate s.nextOp s.takeOp

/-- `s` with the instruction whose bits are `w` placed where the next step fetches (log 12). -/
def State.withFetchWord (s : State) (nbits w : Nat) : State := s.placeWord (tableWord nbits w)

end Sys2Proof.Machine
end

