-- ==== Sys2Proof/Safety.lean ====
section
/-!
DEFINITION. The terms claims are stated in: what is unchanged between two states, the end of a run, the invariants, the
cells a sprite lights, the tables of which instruction writes what.
-/

namespace Sys2Proof.Machine

/-! ### Frames -/

/-- The parts of the state (R30 and the model's own fields). -/
inductive Part where
  | v | regI | pc | stack | sp | dt | st | key | fb | mem | status | loaded | params | draws | soundEvents | schedule
  deriving DecidableEq, Repr

/-- A part is the same in two states; the registers and memory as the model reads them, every register and every byte. -/
def Part.same (s t : State) : Part → Prop
  | .v => ∀ r, t.readV r = s.readV r
  | .regI => t.regI = s.regI
  | .pc => t.pc = s.pc
  | .stack => t.stack = s.stack
  | .sp => t.sp = s.sp
  | .dt => t.dt = s.dt
  | .st => t.st = s.st
  | .key => t.key = s.key
  | .fb => t.fb = s.fb
  | .mem => ∀ a, t.readByte a = s.readByte a
  | .status => t.status = s.status
  | .loaded => t.loaded = s.loaded
  | .params => t.params = s.params
  | .draws => t.draws = s.draws
  | .soundEvents => t.soundEvents = s.soundEvents
  | .schedule => t.schedule = s.schedule

/-- Every part but those listed is the same in the two states. -/
def ChangesOnly (parts : List Part) (s t : State) : Prop := ∀ p, p ∉ parts → p.same s t

/-- The parts each instruction writes, from R34, R35, R37, R39, R43 to R46, R76 and C2; `status` where it can raise a
fatal condition (R300), `draws` for the random byte. -/
def partsWritten : Instr → List Part
  | .nop => []
  | .cls => [.fb]
  | .ret => [.pc, .sp, .status]
  | .jp _ => [.pc]
  | .call _ => [.pc, .stack, .sp, .status]
  | .seImm _ _ => [.pc]
  | .sneImm _ _ => [.pc]
  | .seReg _ _ => [.pc]
  | .ldImm _ _ => [.v]
  | .addImm _ _ => [.v]
  | .ldReg _ _ => [.v]
  | .orReg _ _ => [.v]
  | .andReg _ _ => [.v]
  | .xorReg _ _ => [.v]
  | .addReg _ _ => [.v]
  | .subReg _ _ => [.v]
  | .shr _ _ => [.v]
  | .subn _ _ => [.v]
  | .shl _ _ => [.v]
  | .sneReg _ _ => [.pc]
  | .ldI _ => [.regI]
  | .jpV0 _ => [.pc]
  | .rnd _ _ => [.v, .draws]
  | .drw _ _ _ => [.v, .fb]
  | .skp _ => [.pc, .status]
  | .sknp _ => [.pc, .status]
  | .ldVxDT _ => [.v]
  | .ldVxK _ => [.v, .pc]
  | .ldDTVx _ => [.dt]
  | .ldSTVx _ => [.st]
  | .addI _ => [.regI]
  | .ldF _ => [.regI]
  | .ldB _ => [.mem]
  | .storeRegs _ => [.mem]
  | .loadRegs _ => [.v]

/-- The column "writes" of R34: may the instruction write V[r]? -/
def writesV : Instr → Reg → Bool
  | .ldImm x _, r => r == x
  | .addImm x _, r => r == x
  | .ldReg x _, r => r == x
  | .orReg x _, r => r == x
  | .andReg x _, r => r == x
  | .xorReg x _, r => r == x
  | .addReg x _, r => r == x || r == 15
  | .subReg x _, r => r == x || r == 15
  | .shr x _, r => r == x || r == 15
  | .subn x _, r => r == x || r == 15
  | .shl x _, r => r == x || r == 15
  | .rnd x _, r => r == x
  | .drw _ _ _, r => r == 15
  | .ldVxDT x, r => r == x
  | .ldVxK x, r => r == x
  | .loadRegs x, r => decide (r ≤ x)
  | .nop, _ => false
  | .cls, _ => false
  | .ret, _ => false
  | .jp _, _ => false
  | .call _, _ => false
  | .seImm _ _, _ => false
  | .sneImm _ _, _ => false
  | .seReg _ _, _ => false
  | .sneReg _ _, _ => false
  | .ldI _, _ => false
  | .jpV0 _, _ => false
  | .skp _, _ => false
  | .sknp _, _ => false
  | .ldDTVx _, _ => false
  | .ldSTVx _, _ => false
  | .addI _, _ => false
  | .ldF _, _ => false
  | .ldB _, _ => false
  | .storeRegs _, _ => false

/-! ### Encodings -/

/-- The instruction's word has the mask and match the spec gives it, and the decoder reads the instruction back from it. -/
def EncodedAs (i : Instr) (mask value : Word) : Prop := encode i &&& mask = value ∧ decode (encode i) = .ok i

/-- The illegal subspaces listed in R106, as ranges and fields of the word's number. -/
def illegalSubspace (n : Nat) : Prop :=
  (0x0001 ≤ n ∧ n ≤ 0x00DF) ∨ (0x00E1 ≤ n ∧ n ≤ 0x00ED) ∨ (0x00EF ≤ n ∧ n ≤ 0x0FFF) ∨
  (n / 0x1000 = 0x5 ∧ n % 16 ≠ 0) ∨
  (n / 0x1000 = 0x8 ∧ n % 16 ∈ [0x8, 0x9, 0xA, 0xB, 0xC, 0xD, 0xF]) ∨
  (n / 0x1000 = 0x9 ∧ n % 16 ≠ 0) ∨
  (n / 0x1000 = 0xE ∧ n % 256 ∉ [0x9E, 0xA1]) ∨
  (n / 0x1000 = 0xF ∧ n % 256 ∉ [0x07, 0x0A, 0x15, 0x18, 0x1E, 0x29, 0x33, 0x55, 0x65])

/-! ### Safe states and the end of a run -/

/-- The block is running: a fatal condition is never a successful end (D13). -/
def State.safe (s : State) : Bool := s.status == .running

/-- The end of a run: halted with a fault, or the pc at a word `1nnn` whose nnn is that pc (R345, D27). -/
def State.ended (s : State) : Bool :=
  !s.safe || (decide (s.pc.toNat + 1 < Config.memSize) && s.wordAt s.pc.toNat == encode (.jp (s.pc.truncate 12)))

/-! ### Invariants -/

/-- Memory is in its canonical form. -/
def State.memoryCanonical (s : State) : Prop := Memory.wf s.params.font s.mem = true

/-- The pc is one that an instruction can leave (at most 0x10FE, R149), every occupied stack entry is a return address
from 0x002 to 0x1000 (R142), and no entry, stale ones included, is above 0x1000. -/
def State.addressesInRange (s : State) : Prop :=
  s.pc.toNat ≤ 0x10FE ∧
  ∀ k : Fin 16, (s.stack.get k).toNat ≤ 0x1000 ∧ (k.val < s.sp.val → 0x002 ≤ (s.stack.get k).toNat)

/-! ### Sprites -/

/-- A sprite of n rows at I, drawn at (ox, oy), has a 1 bit on the cell (px, py) (R241): some row r and column c land on it,
with wrapping on both axes, and bit 7 - c of the byte at I + r is 1. -/
def spriteLights (s : State) (ox oy : Byte) (n : Nat) (px : Fin 64) (py : Fin 32) : Prop :=
  ∃ r, r < n ∧ ∃ c, c < 8 ∧ px.val = (ox.toNat + c) % 64 ∧ py.val = (oy.toNat + r) % 32 ∧
    (s.readByte (s.dataAddr r)).getLsbD (7 - c) = true

end Sys2Proof.Machine
end

