-- ==== Sys2Proof/Certificates/Slice0/Obligations.lean ====
section
/-!
DEFINITION. The statements for the provers, from the spec's numbered rules. `exec` is stated on the state after the
fetch, whose pc is the instruction's address plus 2 (R36). `ChangesOnly parts s t` is each statement's frame: every register,
every byte of memory and every other part not listed is as before.
-/

open Sys2Proof Sys2Proof.Machine

/-! ### Encoding -/

/-- Decoding the word of any instruction gives it back, with every operand (R101, R102, R104, R105). -/
def Obligations.DecodeOfEncodeIsTheInstruction : Prop := ∀ i : Instr, decode (encode i) = .ok i

/-- A word that decodes is the encoding of what it decodes to (R104, R105). For 8xy6 and 8xyE, whose y field the spec ignores,
this rests on the model's choice to keep that field in SHR and SHL (DESIGN CHOICE, log 30). -/
def Obligations.EncodeOfDecodeIsTheWord : Prop := ∀ (w : Word) (i : Instr), decode w = .ok i → encode i = w

/-- The decoder of R104 and the masks of R105 agree: a word decodes exactly when it selects a row, to that row's
instruction, and no word selects two rows. -/
def Obligations.DecoderFollowsOpcodeMap : Prop := ∀ w : Word,
  ((∃ i, decode w = .ok i) ↔ legalWord w = true) ∧
  (∀ i, decode w = .ok i → i.row ∈ opcodeMap ∧ ∀ r ∈ opcodeMap, r.selects w = true ↔ r = i.row) ∧
  (legalWord w = false → decode w = .error (.unimplemented w))

/-- The illegal words are exactly the subspaces listed in R106 (a rule the spec derives from R105). -/
def Obligations.IllegalWordsAreTheListedSubspaces : Prop :=
  ∀ w : Word, decode w = .error (.unimplemented w) ↔ illegalSubspace w.toNat

/-- Sanity: words written out from the spec's patterns, one or more per family, decode to what they stand for. -/
def Obligations.WordsOfTheSpecDecode : Prop :=
  decode 0b0000000000000000 = .ok .nop ∧ decode 0b0000000011100000 = .ok .cls ∧ decode 0b0000000011101110 = .ok .ret ∧
  decode 0b0001101010111100 = .ok (.jp 0xABC) ∧ decode 0b0011101001000010 = .ok (.seImm 0xA 0x42) ∧
  decode 0b1000000000010100 = .ok (.addReg 0 1) ∧ decode 0b1000001000001110 = .ok (.shl 2 0) ∧
  decode 0b1010001100000000 = .ok (.ldI 0x300) ∧ decode 0b1111001001100101 = .ok (.loadRegs 2) ∧
  decode 0b1101000000010101 = .ok (.drw 0 1 5) ∧ decode 0b1110000110011110 = .ok (.skp 1) ∧
  decode 0b1111001000001010 = .ok (.ldVxK 2) ∧ decode 0b0101101010110001 = .error (.unimplemented 0x5AB1)

/-! ### The cycle and the step -/

/-- A cycle of a running block whose word decodes runs that instruction, on the state whose pc is the instruction's
address plus 2 (R108; the form of `exec` is log 10). -/
def Obligations.CycleRunsDecodedInstruction : Prop := ∀ (s : State) (i : Instr), s.status = .running →
  s.pc.toNat + 1 < 4096 → decode (s.wordAt s.pc.toNat) = .ok i → s.cycle = exec i { s with pc := s.pc + 2 }

/-- A step whose next operation is a cycle (the schedule is empty or begins with one) runs the decoded instruction, on
the state with pc advanced by 2 and that operation taken off the schedule. The schedule is the model's own (log 6). -/
def Obligations.StepRunsDecodedInstruction : Prop := ∀ (s : State) (i : Instr), s.nextOp = .cycle →
  s.status = .running → s.pc.toNat + 1 < 4096 → decode (s.wordAt s.pc.toNat) = .ok i →
  step s = exec i { s with pc := s.pc + 2, schedule := s.schedule.tail }

/-- A step takes exactly the host's next operation off the schedule, and no operation and no instruction adds, drops or
reorders one (the model's own form of R50 and R310, log 6). -/
def Obligations.StepConsumesOneHostOperation : Prop := ∀ s t : State, step s = .next t → t.schedule = s.schedule.tail

/-- The fetch below 0xFFF: the byte at pc is bits 15..8 of the opcode, the byte at pc + 1 bits 7..0, odd addresses
included, and pc advances by 2 with nothing else changed (R74, R75). -/
def Obligations.FetchIsBigEndianAndAdvances : Prop := ∀ s : State, s.pc.toNat + 1 < 4096 →
  ∃ w t, s.fetch = .ok (w, t) ∧ t = { s with pc := s.pc + 2 } ∧ t.pc.toNat = s.pc.toNat + 2 ∧
    ∀ a b : Addr, a.toNat = s.pc.toNat → b.toNat = s.pc.toNat + 1 →
      w.toNat = (s.readByte a).toNat * 256 + (s.readByte b).toNat

/-- A fetch with pc + 1 >= 4096 halts the block with OutOfBounds(pc), and the cycle changes nothing else. The halted
state is the spec's decision D13. -/
def Obligations.FetchPastTheEndHalts : Prop := ∀ s : State, s.status = .running → 4096 ≤ s.pc.toNat + 1 →
  s.cycle = .next { s with status := .halted (.outOfBounds s.pc) }

/-- An illegal word halts the block with the raw word; pc is the instruction's address plus 2 and nothing else
changes. The halted state is the spec's decision D13. -/
def Obligations.IllegalWordHalts : Prop := ∀ (s : State), s.status = .running → s.pc.toNat + 1 < 4096 →
  legalWord (s.wordAt s.pc.toNat) = false → s.cycle =
    .next { s with pc := s.pc + 2, status := .halted (.unimplementedOpcode (s.wordAt s.pc.toNat)) }

/-- Execution never stops the model: every instruction answers a next state from every state, a fatal
condition being a next state too (R301, R302; log 9). -/
def Obligations.EveryInstructionAnswersANextState : Prop := ∀ (i : Instr) (s : State), ∃ t, exec i s = .next t

/-- The fatal conditions of R300 that a cycle can raise are the only ones: a running block is halted by a cycle
exactly under the listed condition, with the listed info. The fault record is the spec's decision D13 and the key
fault its decision D7. -/
def Obligations.CycleHaltsOnlyOnListedConditions : Prop := ∀ (s t : State) (f : Fatal), s.status = .running →
  s.cycle = .next t → (t.status = .halted f ↔
    match f with
    | .outOfBounds p => 4096 ≤ s.pc.toNat + 1 ∧ p = s.pc
    | .unimplementedOpcode w => s.pc.toNat + 1 < 4096 ∧ w = s.wordAt s.pc.toNat ∧ legalWord w = false
    | .stackOverflow r => s.pc.toNat + 1 < 4096 ∧ (∃ nnn, decode (s.wordAt s.pc.toNat) = .ok (.call nnn)) ∧
        s.sp = 16 ∧ s.params.stackPolicy = .fault ∧ r = s.pc + 2
    | .stackUnderflow => s.pc.toNat + 1 < 4096 ∧ decode (s.wordAt s.pc.toNat) = .ok .ret ∧
        s.sp = 0 ∧ s.params.stackPolicy = .fault
    | .keyIndexOutOfRange v => s.pc.toNat + 1 < 4096 ∧ (∃ x, (decode (s.wordAt s.pc.toNat) = .ok (.skp x) ∨
        decode (s.wordAt s.pc.toNat) = .ok (.sknp x)) ∧ v = s.readV x) ∧ 16 ≤ v.toNat
    | .capacityError _ => False)

/-- Faults are precise: the state a fault leaves in a cycle is the state before it but for `status`, and for pc, which the
fetch has advanced by 2 except when the fetch itself failed (the spec's derived rule R303 and decision D13). -/
def Obligations.CycleFaultsArePrecise : Prop := ∀ (s t : State) (f : Fatal), s.status = .running →
  s.cycle = .next t → t.status = .halted f →
  t = { s with status := .halted f, pc := if 4096 ≤ s.pc.toNat + 1 then s.pc else s.pc + 2 }

/-- Once halted the block stays halted until `create`: cycle and tick change nothing, a load is refused, `set_key` still writes
the latch, and every operation but `create` leaves `status` (the spec's decision D13). -/
def Obligations.HaltedUntilCreate : Prop := ∀ (s : State) (f : Fatal), s.status = .halted f →
  operate .cycle s = .next s ∧ operate .tick s = .next s ∧
  (∀ bs, operate (.loadProgram bs) s = .refused .loadRefused) ∧
  (∀ (k : Nat) (h : k < 16) (p : Bool), operate (.setKey k p) s = .next { s with key := s.key.set k p h }) ∧
  (∀ op t, op ≠ .create → operate op s = .next t → t.status = .halted f) ∧
  (∃ t, operate .create s = .next t ∧ t.status = .running)

/-! ### Invariants -/

/-- Every step keeps memory in its canonical form (log 8). -/
def Obligations.StepKeepsMemoryCanonical : Prop :=
  ∀ s t : State, s.memoryCanonical → step s = .next t → t.memoryCanonical

/-- Every step keeps the pc and the return addresses in range: pc at most 0x10FE (the largest target of Bnnn, R149), each
occupied stack entry an address from 0x002 to 0x1000 (R142), no stale entry above 0x1000. It follows from R37,
R142, R144 and R149 that the wrap of pc, the spec's decision D6 (log 17), is never reached. -/
def Obligations.StepKeepsAddressesInRange : Prop :=
  ∀ s t : State, s.addressesInRange → step s = .next t → t.addressesInRange

/-- The state after reset meets both invariants: memory canonical, the pc and the return addresses in range. -/
def Obligations.ResetMeetsTheInvariants : Prop := State.reset.memoryCanonical ∧ State.reset.addressesInRange

/-- No step changes the parameters FONT and STACK_POLICY (they are fixed for the machine; the field is the model's own, log 3). -/
def Obligations.StepKeepsParameters : Prop := ∀ s t : State, step s = .next t → t.params = s.params

/-! ### Which instruction writes what -/

/-- The frame of every instruction: it changes no part of the state but those its rule writes. -/
def Obligations.EveryInstructionChangesOnlyItsParts : Prop :=
  ∀ (i : Instr) (s t : State), exec i s = .next t → ChangesOnly (partsWritten i) s t

/-- The column "writes" of R34: an instruction leaves every register that the table does not list for it, and Fx0A
writes V[x] only when a key is pressed. -/
def Obligations.RegistersWrittenAreThoseOfTheTable : Prop :=
  (∀ (i : Instr) (s t : State) (r : Reg), exec i s = .next t → writesV i r = false → t.readV r = s.readV r) ∧
  (∀ (x r : Reg) (s t : State), (∀ k, s.key.get k = false) → exec (.ldVxK x) s = .next t → t.readV r = s.readV r)

/-- I changes only by Annn, Fx1E and Fx29, by any other instruction never (R35). -/
def Obligations.OnlyThreeInstructionsWriteI : Prop := ∀ (i : Instr) (s t : State), exec i s = .next t →
  (∃ nnn, i = .ldI nnn) ∨ (∃ x, i = .addI x) ∨ (∃ x, i = .ldF x) ∨ t.regI = s.regI

/-- The writers of the pc, each with its value and its condition (R37; the modulus 2^16 of the additions is the spec's decision
D6, the empty and the full stack follow its decision D2, the lack of a key cell from 16 up is its decision D7): a jump or a
call gives the target, a return the address popped, a taken skip 2 more, Fx0A 2 less while no key is pressed. A skip
not taken, a CALL or RET that raises, and every other instruction leave pc as the fetch gave it. -/
def Obligations.PcWritersAreThoseListed : Prop := ∀ (i : Instr) (s t : State), exec i s = .next t →
  match i with
  | .jp nnn => t.pc.toNat = nnn.toNat
  | .call nnn => if s.sp = 16 ∧ s.params.stackPolicy = .fault then t.pc = s.pc else t.pc.toNat = nnn.toNat
  | .jpV0 nnn => t.pc.toNat = nnn.toNat + (s.readV 0).toNat
  | .ret => (∃ k : Fin 16, s.sp.val = k.val + 1 ∧ t.pc = s.stack.get k) ∨
      (s.sp = 0 ∧ t.pc = if s.params.stackPolicy = .reference then s.stack.get 0 else s.pc)
  | .seImm x kk => t.pc = if s.readV x = kk then s.pc + 2 else s.pc
  | .sneImm x kk => t.pc = if s.readV x = kk then s.pc else s.pc + 2
  | .seReg x y => t.pc = if s.readV x = s.readV y then s.pc + 2 else s.pc
  | .sneReg x y => t.pc = if s.readV x = s.readV y then s.pc else s.pc + 2
  | .skp x => t.pc = if ∃ k : Fin 16, (s.readV x).toNat = k.val ∧ s.key.get k = true then s.pc + 2 else s.pc
  | .sknp x => t.pc = if ∃ k : Fin 16, (s.readV x).toNat = k.val ∧ s.key.get k = false then s.pc + 2 else s.pc
  | .ldVxK _ => t.pc = if ∀ k, s.key.get k = false then s.pc - 2 else s.pc
  | _ => t.pc = s.pc

/-- No instruction reads ST: the value of the sound timer changes nothing but the sound timer itself (R43). -/
def Obligations.NoInstructionReadsTheSoundTimer : Prop := ∀ (i : Instr) (s t : State) (b : Byte), exec i s = .next t →
  exec i { s with st := b } = .next { t with st := if (∃ x, i = .ldSTVx x) then t.st else b }

/-! ### Control flow -/

/-- NOP: nothing beyond the fetch's advance, and 0x0000 is the only no-op of 0nnn (R141). -/
def Obligations.NopChangesNothing : Prop :=
  (∀ s : State, exec .nop s = .next s) ∧ EncodedAs .nop 0xFFFF 0x0000 ∧
  (∀ w : Word, decode w = .ok .nop → w = 0x0000)

/-- NOPs slide: over memory that reads zero from the pc up, k cycles advance the pc by 2k and change nothing else, and where
that reaches 0x1000 the next cycle halts with OutOfBounds(0x1000) (R141, R344; the schedule is empty, log 6; the halted state is
the spec's decision D13). -/
def Obligations.ZeroMemorySlidesToOutOfBounds : Prop := ∀ (s : State) (k : Nat), s.status = .running → s.schedule = [] →
  (∀ a : Addr, s.pc.toNat ≤ a.toNat → s.readByte a = 0) → s.pc.toNat + 2 * k ≤ 4096 →
  Sys2Proof.core.run k s = .next { s with pc := s.pc + BitVec.ofNat 16 (2 * k) } ∧
  (s.pc.toNat + 2 * k = 4096 → Sys2Proof.core.run (k + 1) s =
    .next { s with pc := 0x1000, status := .halted (.outOfBounds 0x1000) })

/-- RET: with a frame, pc is the top entry and the depth one less, the entry staying as it is; with none, the policy
Fault raises StackUnderflow with pc as the fetch left it, and the policy Reference returns stack[0] (R142; the two policies are
the spec's decision D2, log 5, and the entry that stays its decision D23, log 25). -/
def Obligations.RetPopsTheReturnAddress : Prop :=
  (∀ (s : State) (k : Fin 16), s.sp.val = k.val + 1 → ∃ t, exec .ret s = .next t ∧ ChangesOnly [.pc, .sp] s t ∧
    t.pc = s.stack.get k ∧ t.sp.val = k.val) ∧
  (∀ s : State, s.sp = 0 → s.params.stackPolicy = .fault →
    exec .ret s = .next { s with status := .halted .stackUnderflow }) ∧
  (∀ s : State, s.sp = 0 → s.params.stackPolicy = .reference → exec .ret s = .next { s with pc := s.stack.get 0 }) ∧
  EncodedAs .ret 0xFFFF 0x00EE

/-- JP nnn: pc is nnn, odd or even; nnn = 0xFFF makes the next fetch fail; a jump to its own address makes the whole cycle
change nothing, so it runs again (R143). -/
def Obligations.JumpSetsPc : Prop := ∀ (s : State) (nnn : Addr),
  (∃ t, exec (.jp nnn) s = .next t ∧ ChangesOnly [.pc] s t ∧ t.pc.toNat = nnn.toNat ∧
    (nnn = 0xFFF → t.fetch = .error (.outOfBounds 0xFFF)) ∧ EncodedAs (.jp nnn) 0xF000 0x1000) ∧
  (s.status = .running → s.pc.toNat = nnn.toNat → nnn.toNat + 1 < 4096 →
    decode (s.wordAt nnn.toNat) = .ok (.jp nnn) → s.cycle = .next s)

/-- CALL nnn: with room, the address after the call is pushed and pc is nnn; on a full stack the policy Fault raises
StackOverflow(pc) with nothing written, and the policy Reference puts the return address in stack[0], sp 1, the other
entries kept (R144; the two policies are the spec's decision D2, log 5). -/
def Obligations.CallPushesTheReturnAddress : Prop :=
  (∀ (s : State) (nnn : Addr) (k : Fin 16), s.sp.val = k.val → ∃ t, exec (.call nnn) s = .next t ∧
    ChangesOnly [.pc, .stack, .sp] s t ∧ t.pc.toNat = nnn.toNat ∧ t.sp.val = k.val + 1 ∧
    ∀ j, t.stack.get j = if j = k then s.pc else s.stack.get j) ∧
  (∀ (s : State) (nnn : Addr), s.sp = 16 → s.params.stackPolicy = .fault →
    exec (.call nnn) s = .next { s with status := .halted (.stackOverflow s.pc) }) ∧
  (∀ (s : State) (nnn : Addr), s.sp = 16 → s.params.stackPolicy = .reference → ∃ t, exec (.call nnn) s = .next t ∧
    ChangesOnly [.pc, .stack, .sp] s t ∧ t.pc.toNat = nnn.toNat ∧ t.sp = 1 ∧
    ∀ j, t.stack.get j = if j = 0 then s.pc else s.stack.get j) ∧
  (∀ nnn, EncodedAs (.call nnn) 0xF000 0x2000)

/-- SE Vx, kk and SNE Vx, kk: 2 is added to pc when all 8 bits are equal, or when they are not; nothing else is written
(R145, R146). The modulus 2^16 of the addition is the spec's decision D6. -/
def Obligations.SkipOnImmediate : Prop := ∀ (s : State) (x : Reg) (kk : Byte),
  (∃ t, exec (.seImm x kk) s = .next t ∧ ChangesOnly [.pc] s t ∧
    t.pc = (if s.readV x = kk then s.pc + 2 else s.pc) ∧ EncodedAs (.seImm x kk) 0xF000 0x3000) ∧
  (∃ t, exec (.sneImm x kk) s = .next t ∧ ChangesOnly [.pc] s t ∧
    t.pc = (if s.readV x = kk then s.pc else s.pc + 2) ∧ EncodedAs (.sneImm x kk) 0xF000 0x4000)

/-- SE Vx, Vy and SNE Vx, Vy; 5xyN and 9xyN with N not 0 are illegal (R147, R148). The modulus is decision D6. -/
def Obligations.SkipOnRegisters : Prop := (∀ (s : State) (x y : Reg),
  (∃ t, exec (.seReg x y) s = .next t ∧ ChangesOnly [.pc] s t ∧
    t.pc = (if s.readV x = s.readV y then s.pc + 2 else s.pc) ∧ EncodedAs (.seReg x y) 0xF00F 0x5000) ∧
  (∃ t, exec (.sneReg x y) s = .next t ∧ ChangesOnly [.pc] s t ∧
    t.pc = (if s.readV x = s.readV y then s.pc else s.pc + 2) ∧ EncodedAs (.sneReg x y) 0xF00F 0x9000)) ∧
  (∀ w : Word, fieldMsb w = 0x5 ∨ fieldMsb w = 0x9 → fieldN w ≠ 0 → decode w = .error (.unimplemented w))

/-- JP V0, nnn: pc is nnn + V0, not reduced modulo 4096; from 0xFFF up the next fetch fails (R149). -/
def Obligations.JumpWithOffsetDoesNotWrap : Prop := ∀ (s : State) (nnn : Addr), ∃ t, exec (.jpV0 nnn) s = .next t ∧
  ChangesOnly [.pc] s t ∧ t.pc.toNat = nnn.toNat + (s.readV 0).toNat ∧
  (0xFFF ≤ nnn.toNat + (s.readV 0).toNat → t.fetch = .error (.outOfBounds t.pc)) ∧ EncodedAs (.jpV0 nnn) 0xF000 0xB000

/-! ### Registers and ALU -/

/-- LD Vx, kk and ADD Vx, kk: the immediate, or the sum modulo 256; no flag, so VF is as before unless x = F (R171, R172). -/
def Obligations.LoadAndAddImmediate : Prop := ∀ (s : State) (x : Reg) (kk : Byte),
  (∃ t, exec (.ldImm x kk) s = .next t ∧ ChangesOnly [.v] s t ∧
    (∀ r, t.readV r = if r = x then kk else s.readV r) ∧ EncodedAs (.ldImm x kk) 0xF000 0x6000) ∧
  (∃ t, exec (.addImm x kk) s = .next t ∧ ChangesOnly [.v] s t ∧
    (∀ r, (t.readV r).toNat = if r = x then ((s.readV x).toNat + kk.toNat) % 256 else (s.readV r).toNat) ∧
    EncodedAs (.addImm x kk) 0xF000 0x7000)

/-- LD, OR, AND and XOR of registers, bit by bit; no flag: every register but V[x] is as before, VF among them
(R173, R174, R175, R176). -/
def Obligations.RegisterLogicWritesNoFlag : Prop := ∀ (s : State) (x y : Reg),
  (∃ t, exec (.ldReg x y) s = .next t ∧ ChangesOnly [.v] s t ∧
    (∀ r, t.readV r = if r = x then s.readV y else s.readV r) ∧ EncodedAs (.ldReg x y) 0xF00F 0x8000) ∧
  (∃ t, exec (.orReg x y) s = .next t ∧ ChangesOnly [.v] s t ∧ (∀ r, r ≠ x → t.readV r = s.readV r) ∧
    (∀ b, (t.readV x).getLsbD b = ((s.readV x).getLsbD b || (s.readV y).getLsbD b)) ∧
    EncodedAs (.orReg x y) 0xF00F 0x8001) ∧
  (∃ t, exec (.andReg x y) s = .next t ∧ ChangesOnly [.v] s t ∧ (∀ r, r ≠ x → t.readV r = s.readV r) ∧
    (∀ b, (t.readV x).getLsbD b = ((s.readV x).getLsbD b && (s.readV y).getLsbD b)) ∧
    EncodedAs (.andReg x y) 0xF00F 0x8002) ∧
  (∃ t, exec (.xorReg x y) s = .next t ∧ ChangesOnly [.v] s t ∧ (∀ r, r ≠ x → t.readV r = s.readV r) ∧
    (∀ b, (t.readV x).getLsbD b = ((s.readV x).getLsbD b ^^ (s.readV y).getLsbD b)) ∧
    EncodedAs (.xorReg x y) 0xF00F 0x8003)

/-- ADD Vx, Vy: the sum modulo 256 in V[x], and VF 1 exactly when it passes 255; VF ends as the carry also
when x = F (R177; that the flag is written last is the spec's decision D3, log 14). -/
def Obligations.AddSetsCarry : Prop := ∀ (s : State) (x y : Reg), ∃ t, exec (.addReg x y) s = .next t ∧
  ChangesOnly [.v] s t ∧ (∀ r, (t.readV r).toNat =
    if r = 15 then (if 255 < (s.readV x).toNat + (s.readV y).toNat then 1 else 0)
    else if r = x then ((s.readV x).toNat + (s.readV y).toNat) % 256 else (s.readV r).toNat) ∧
  EncodedAs (.addReg x y) 0xF00F 0x8004

/-- SUB and SUBN: the difference modulo 256 in V[x], and VF 1 exactly when nothing is borrowed; VF ends as the flag also
when x = F (R178, R180; that the flag is written last is the spec's decision D3, log 14). -/
def Obligations.SubtractSetsNoBorrow : Prop := ∀ (s : State) (x y : Reg),
  (∃ t, exec (.subReg x y) s = .next t ∧ ChangesOnly [.v] s t ∧ (∀ r, (t.readV r).toNat =
    if r = 15 then (if (s.readV y).toNat ≤ (s.readV x).toNat then 1 else 0)
    else if r = x then ((s.readV x).toNat + 256 - (s.readV y).toNat) % 256 else (s.readV r).toNat) ∧
    EncodedAs (.subReg x y) 0xF00F 0x8005) ∧
  (∃ t, exec (.subn x y) s = .next t ∧ ChangesOnly [.v] s t ∧ (∀ r, (t.readV r).toNat =
    if r = 15 then (if (s.readV x).toNat ≤ (s.readV y).toNat then 1 else 0)
    else if r = x then ((s.readV y).toNat + 256 - (s.readV x).toNat) % 256 else (s.readV r).toNat) ∧
    EncodedAs (.subn x y) 0xF00F 0x8007)

/-- SHR and SHL of V[x], whatever y is: halved or doubled modulo 256, VF the bit shifted out, also when x = F
(R179, R181; that the flag is written last is the spec's decision D3, log 14). -/
def Obligations.ShiftsSetTheBitShiftedOut : Prop := ∀ (s : State) (x y : Reg),
  (∃ t, exec (.shr x y) s = .next t ∧ ChangesOnly [.v] s t ∧ (∀ r, (t.readV r).toNat =
    if r = 15 then (s.readV x).toNat % 2 else if r = x then (s.readV x).toNat / 2 else (s.readV r).toNat) ∧
    EncodedAs (.shr x y) 0xF00F 0x8006) ∧
  (∃ t, exec (.shl x y) s = .next t ∧ ChangesOnly [.v] s t ∧ (∀ r, (t.readV r).toNat =
    if r = 15 then (s.readV x).toNat / 128 else if r = x then (s.readV x).toNat * 2 % 256 else (s.readV r).toNat) ∧
    EncodedAs (.shl x y) 0xF00F 0x800E)

/-- RND Vx, kk: V[x] is the next byte of the random source ANDed with kk, one byte per execution; it has no bit that is
clear in kk (R182). The byte is a free value (log 1): the statement holds for every one. -/
def Obligations.RandomByteIsMasked : Prop := ∀ (s : State) (x : Reg) (kk : Byte), ∃ t, exec (.rnd x kk) s = .next t ∧
  ChangesOnly [.v, .draws] s t ∧ t.draws = s.draws + 1 ∧ (∀ r, r ≠ x → t.readV r = s.readV r) ∧
  t.readV x = Config.randomByte s.draws &&& kk ∧
  (∀ b, kk.getLsbD b = false → (t.readV x).getLsbD b = false) ∧ EncodedAs (.rnd x kk) 0xF000 0xC000

/-! ### Register I and memory -/

/-- LD I: the upper 4 bits become 0. ADD I: modulo 2^16, no flag. LD F: five times V[x], V[x] not masked
(R210, R211, R212). -/
def Obligations.IndexRegisterResults : Prop :=
  (∀ (s : State) (nnn : Addr), ∃ t, exec (.ldI nnn) s = .next t ∧ ChangesOnly [.regI] s t ∧
    t.regI.toNat = nnn.toNat ∧ EncodedAs (.ldI nnn) 0xF000 0xA000) ∧
  (∀ (s : State) (x : Reg), ∃ t, exec (.addI x) s = .next t ∧ ChangesOnly [.regI] s t ∧
    t.regI.toNat = (s.regI.toNat + (s.readV x).toNat) % 65536 ∧ EncodedAs (.addI x) 0xF0FF 0xF01E) ∧
  (∀ (s : State) (x : Reg), ∃ t, exec (.ldF x) s = .next t ∧ ChangesOnly [.regI] s t ∧
    t.regI.toNat = (s.readV x).toNat * 5 ∧ EncodedAs (.ldF x) 0xF0FF 0xF029)

/-- LD B, Vx: the hundreds, tens and ones digits go to I, I+1 and I+2, wrapping past 0xFFF, and every other byte, I among
the registers, is as before (R213). The address (I + k) mod 4096 is the spec's decision D4 (R76). -/
def Obligations.DecimalDigitsAreStored : Prop := ∀ (s : State) (x : Reg), ∃ t, exec (.ldB x) s = .next t ∧
  ChangesOnly [.mem] s t ∧ (∀ k, (s.dataAddr k).toNat = (s.regI.toNat + k) % 4096) ∧
  (t.readByte (s.dataAddr 0)).toNat = (s.readV x).toNat / 100 ∧
  (t.readByte (s.dataAddr 1)).toNat = (s.readV x).toNat / 10 % 10 ∧
  (t.readByte (s.dataAddr 2)).toNat = (s.readV x).toNat % 10 ∧
  (∀ a, (∀ k, k < 3 → a ≠ s.dataAddr k) → t.readByte a = s.readByte a) ∧ EncodedAs (.ldB x) 0xF0FF 0xF033

/-- LD [I], Vx: V0 to V[x] go to I, ..., I + x, wrapping past 0xFFF; every other byte is as before and I is unchanged
(R214). The address (I + k) mod 4096 is the spec's decision D4 (R76). -/
def Obligations.RegistersAreStored : Prop := ∀ (s : State) (x : Reg), ∃ t, exec (.storeRegs x) s = .next t ∧
  ChangesOnly [.mem] s t ∧ (∀ k, (s.dataAddr k).toNat = (s.regI.toNat + k) % 4096) ∧
  (∀ k : Reg, k ≤ x → t.readByte (s.dataAddr k.val) = s.readV k) ∧
  (∀ a, (∀ k : Reg, k ≤ x → a ≠ s.dataAddr k.val) → t.readByte a = s.readByte a) ∧
  EncodedAs (.storeRegs x) 0xF0FF 0xF055

/-- LD Vx, [I]: V0 to V[x] are loaded from I, ..., I + x, wrapping past 0xFFF; the other registers, memory and I are
as before (R215). The address (I + k) mod 4096 is the spec's decision D4 (R76). -/
def Obligations.RegistersAreLoaded : Prop := ∀ (s : State) (x : Reg), ∃ t, exec (.loadRegs x) s = .next t ∧
  ChangesOnly [.v] s t ∧ (∀ k, (s.dataAddr k).toNat = (s.regI.toNat + k) % 4096) ∧
  (∀ r : Reg, t.readV r = if r ≤ x then s.readByte (s.dataAddr r.val) else s.readV r) ∧
  EncodedAs (.loadRegs x) 0xF0FF 0xF065

/-- The round trip of the source (95_test_vectors W4): Fx55, any change to the registers, then Fx65 with the same x and I
restores V0 to V[x], when memory is untouched between the two; the addresses may wrap (the spec's decision D4). -/
def Obligations.StoreThenLoadRestoresRegisters : Prop := ∀ (s t u w : State) (x : Reg),
  exec (.storeRegs x) s = .next t → u.regI = t.regI → (∀ a, u.readByte a = t.readByte a) →
  exec (.loadRegs x) u = .next w → ∀ k, k ≤ x → w.readV k = s.readV k

/-- Memory is sequential: after any list of byte writes, in order, an address reads as the last byte written to it, and as
before where none was written, in every state (the spec's derived rule R80; R78). -/
def Obligations.ReadGivesTheLastWrite : Prop := ∀ (s : State) (ws : List (Addr × Byte)) (a : Addr),
  (ws.foldl (fun t w => t.writeByte w.1 w.2) s).readByte a =
    ((ws.reverse.find? (fun w => w.1 == a)).map Prod.snd).getD (s.readByte a)

/-- A store is seen by instruction fetch at once: a word that Fx55 wrote over is fetched with the bytes stored (the spec's
derived rule R83). -/
def Obligations.StoresAreSeenByFetch : Prop := ∀ (s t : State) (x j k : Reg), exec (.storeRegs x) s = .next t →
  j ≤ x → k ≤ x → s.pc.toNat + 1 < 4096 → (s.dataAddr j.val).toNat = s.pc.toNat →
  (s.dataAddr k.val).toNat = s.pc.toNat + 1 →
  ∃ w u, t.fetch = .ok (w, u) ∧ w.toNat = (s.readV j).toNat * 256 + (s.readV k).toNat

/-! ### Display -/

/-- CLS: every cell is false and nothing else changes, VF among it; twice is the same as once (R240). -/
def Obligations.ClearScreenBlanksEveryCell : Prop := ∀ s : State, ∃ t, exec .cls s = .next t ∧ ChangesOnly [.fb] s t ∧
  (∀ px py, fbCell t.fb px py = false) ∧ exec .cls t = .next t ∧ EncodedAs .cls 0xFFFF 0x00E0

/-- DRW Vx, Vy, n: each cell is XORed with the sprite, which wraps on both axes; VF is 1 exactly when a lit cell was turned
off, also when x or y is F; memory and I are unchanged. That bit 7 is the leftmost column is the spec's decision D9 (log 20),
the addresses of the sprite its decision D4, the flag written last its decision D3. -/
def Obligations.DrawXorsTheSprite : Prop := ∀ (s : State) (x y : Reg) (n : Fin 16), ∃ t, exec (.drw x y n) s = .next t ∧
  ChangesOnly [.v, .fb] s t ∧
  (∀ px py, fbCell t.fb px py = true ↔
    ¬ (fbCell s.fb px py = true ↔ spriteLights s (s.readV x) (s.readV y) n.val px py)) ∧
  (∀ r, r ≠ 15 → t.readV r = s.readV r) ∧
  (t.readV 15 = 1 ↔ ∃ px py, spriteLights s (s.readV x) (s.readV y) n.val px py ∧ fbCell s.fb px py = true) ∧
  (t.readV 15 = 0 ↔ ∀ px py, spriteLights s (s.readV x) (s.readV y) n.val px py → fbCell s.fb px py = false) ∧
  EncodedAs (.drw x y n) 0xF000 0xD000

/-- The source's draw property (95_test_vectors W5): drawing the same sprite at the same place twice restores the
framebuffer, and on a clear one the second draw sets VF exactly when the sprite has a 1 bit. -/
def Obligations.DrawTwiceErases : Prop := ∀ (s t u : State) (x y : Reg) (n : Fin 16), x ≠ 15 → y ≠ 15 →
  exec (.drw x y n) s = .next t → exec (.drw x y n) t = .next u →
  u.fb = s.fb ∧ ((∀ px py, fbCell s.fb px py = false) → (u.readV 15 = 1 ↔
    ∃ px py, spriteLights s (s.readV x) (s.readV y) n.val px py))

/-! ### Keys and timers -/

/-- SKP and SKNP with V[x] below 16 skip when that key is pressed, or is not; from 16 up they halt the block with
KeyIndexOutOfRange(V[x]) and write nothing else. The fault is the spec's decision D7. -/
def Obligations.KeySkipsReadTheLatch : Prop :=
  (∀ (s : State) (x : Reg) (k : Fin 16), (s.readV x).toNat = k.val →
    (∃ t, exec (.skp x) s = .next t ∧ ChangesOnly [.pc] s t ∧
      t.pc = if s.key.get k = true then s.pc + 2 else s.pc) ∧
    (∃ t, exec (.sknp x) s = .next t ∧ ChangesOnly [.pc] s t ∧
      t.pc = if s.key.get k = true then s.pc else s.pc + 2)) ∧
  (∀ (s : State) (x : Reg), 16 ≤ (s.readV x).toNat →
    exec (.skp x) s = .next { s with status := .halted (.keyIndexOutOfRange (s.readV x)) } ∧
    exec (.sknp x) s = .next { s with status := .halted (.keyIndexOutOfRange (s.readV x)) }) ∧
  (∀ x, EncodedAs (.skp x) 0xF0FF 0xE09E ∧ EncodedAs (.sknp x) 0xF0FF 0xE0A1)

/-- LD Vx, DT copies the delay timer, LD DT, Vx sets it; no flag even with x = F (R263, R265). -/
def Obligations.DelayTimerIsReadAndWritten : Prop := ∀ (s : State) (x : Reg),
  (∃ t, exec (.ldVxDT x) s = .next t ∧ ChangesOnly [.v] s t ∧
    (∀ r, t.readV r = if r = x then s.dt else s.readV r) ∧ EncodedAs (.ldVxDT x) 0xF0FF 0xF007) ∧
  (∃ t, exec (.ldDTVx x) s = .next t ∧ ChangesOnly [.dt] s t ∧ t.dt = s.readV x ∧ EncodedAs (.ldDTVx x) 0xF0FF 0xF015)

/-- LD ST, Vx sets the sound timer and raises no `sound_expired`, even from 1 to 0 (the spec's decision D15; events are
counted in the model's own field, log 7). -/
def Obligations.SoundTimerWriteRaisesNoEvent : Prop := ∀ (s : State) (x : Reg), ∃ t, exec (.ldSTVx x) s = .next t ∧
  ChangesOnly [.st] s t ∧ t.st = s.readV x ∧ t.soundEvents = s.soundEvents ∧ EncodedAs (.ldSTVx x) 0xF0FF 0xF018

/-- LD Vx, K: with no key pressed the pc goes back by 2, so that the whole cycle changes nothing and runs again; otherwise
V[x] is the lowest pressed key (the spec's decision D8) and the latch is not cleared. -/
def Obligations.WaitForKeyOrTakeTheLowest : Prop :=
  (∀ (s : State) (x : Reg), (∀ k, s.key.get k = false) → ∃ t, exec (.ldVxK x) s = .next t ∧ ChangesOnly [.pc] s t ∧
    t.pc + 2 = s.pc) ∧
  (∀ (s : State) (x : Reg) (k : Fin 16), s.key.get k = true → (∀ j, j < k → s.key.get j = false) →
    ∃ t, exec (.ldVxK x) s = .next t ∧ ChangesOnly [.v] s t ∧
      ∀ r, (t.readV r).toNat = if r = x then k.val else (s.readV r).toNat) ∧
  (∀ (s : State) (x : Reg), s.status = .running → s.pc.toNat + 1 < 4096 →
    decode (s.wordAt s.pc.toNat) = .ok (.ldVxK x) → (∀ k, s.key.get k = false) → s.cycle = .next s) ∧
  (∀ x, EncodedAs (.ldVxK x) 0xF0FF 0xF00A)

/-! ### The host's operations -/

/-- `tick()` while running: both timers down by 1, stopping at 0, and the event `sound_expired` exactly when ST was 1;
nothing else changes (R308, R309; the count of events is the model's own field, log 7). -/
def Obligations.TickCountsBothTimersDown : Prop := ∀ s : State, s.status = .running → ∃ t, operate .tick s = .next t ∧
  ChangesOnly [.dt, .st, .soundEvents] s t ∧ t.dt.toNat = s.dt.toNat - 1 ∧ t.st.toNat = s.st.toNat - 1 ∧
  t.soundEvents = s.soundEvents + (if s.st.toNat = 1 then 1 else 0)

/-- n ticks of a running block take n off each timer, never below 0, and raise `sound_expired` once in all, exactly when they
take ST from above 0 to 0 (R308, R309, W9; events are counted in the model's own field, log 7). -/
def Obligations.TicksDecayTimersAndSignalOnce : Prop := ∀ (n : Nat) (s : State), s.status = .running →
  (State.tick^[n] s).dt.toNat = s.dt.toNat - n ∧ (State.tick^[n] s).st.toNat = s.st.toNat - n ∧
  (State.tick^[n] s).soundEvents = s.soundEvents + (if 1 ≤ s.st.toNat ∧ s.st.toNat ≤ n then 1 else 0)

/-- `set_key(k, pressed)` writes that cell of the latch and nothing else, in any status; a k outside 0..15 is refused
(R311; the refusal is the spec's decision D26). -/
def Obligations.SetKeyWritesTheLatch : Prop :=
  (∀ (s : State) (k : Fin 16) (pressed : Bool), ∃ t, operate (.setKey k.val pressed) s = .next t ∧
    ChangesOnly [.key] s t ∧ ∀ j, t.key.get j = if j = k then pressed else s.key.get j) ∧
  (∀ (s : State) (k : Nat) (pressed : Bool), 16 ≤ k → operate (.setKey k pressed) s = .refused (.invalidKey k))

/-- `load_program(bytes)`: accepted up to 3584 bytes, which go to 0x200 upward, `loaded` becomes true and nothing else
changes; a longer one halts with CapacityError(L) and memory unchanged; halted or already loaded, it is refused (R342; the
halted state is the spec's decision D13, the refusal its decision D21, log 11). -/
def Obligations.LoadProgramCopiesToTheBase : Prop := ∀ (s : State) (bs : List Byte),
  (s.status = .running → s.loaded = false → bs.length ≤ 3584 → ∃ t, operate (.loadProgram bs) s = .next t ∧
    ChangesOnly [.mem, .loaded] s t ∧ t.loaded = true ∧
    (∀ (k : Nat) (h : k < bs.length) (a : Addr), a.toNat = 0x200 + k → t.readByte a = bs[k]) ∧
    (∀ a : Addr, a.toNat < 0x200 ∨ 0x200 + bs.length ≤ a.toNat → t.readByte a = s.readByte a)) ∧
  (s.status = .running → s.loaded = false → 3584 < bs.length →
    operate (.loadProgram bs) s = .next { s with status := .halted (.capacityError bs.length) }) ∧
  (s.status ≠ .running ∨ s.loaded = true → operate (.loadProgram bs) s = .refused .loadRefused)

/-- `create()` from any state, a halted one too: every part at its value after create, memory the font at 0x000-0x04F and
zero above (the spec's R340 and R52; keys, status and `loaded` are its decisions D12, D13 and D21). The font is the parameter FONT. -/
def Obligations.CreateGivesTheFreshState : Prop := ∀ s : State, ∃ t, operate .create s = .next t ∧
  (∀ r, t.readV r = 0) ∧ t.regI = 0 ∧ t.pc = 0x200 ∧ (∀ k, t.stack.get k = 0) ∧ t.sp = 0 ∧ t.dt = 0 ∧ t.st = 0 ∧
  (∀ px py, fbCell t.fb px py = false) ∧ (∀ k, t.key.get k = false) ∧ t.status = .running ∧ t.loaded = false ∧
  (∀ (a : Addr) (h : a.toNat < 80), t.readByte a = s.params.font.get ⟨a.toNat, h⟩) ∧
  (∀ a : Addr, 80 ≤ a.toNat → t.readByte a = 0) ∧ t.params = s.params

/-- The state after reset is what `create` leaves (R52): its values, with the default FONT, whose bytes at 0x000-0x004 are
F0 90 90 90 F0 (PRESUMED by the spec's own mark, log 4), the default policy Fault (log 5) and the keys released (the
spec's decision D12, log 22). -/
def Obligations.ResetValues : Prop :=
  (∀ r, State.reset.readV r = 0) ∧ State.reset.regI = 0 ∧ State.reset.pc = 0x200 ∧
  (∀ k, State.reset.stack.get k = 0) ∧ State.reset.sp = 0 ∧ State.reset.dt = 0 ∧ State.reset.st = 0 ∧
  (∀ k, State.reset.key.get k = false) ∧ (∀ px py, fbCell State.reset.fb px py = false) ∧
  State.reset.status = .running ∧ State.reset.loaded = false ∧ State.reset.params.stackPolicy = .fault ∧
  (∀ a : Addr, 80 ≤ a.toNat → State.reset.readByte a = 0) ∧
  [State.reset.readByte 0, State.reset.readByte 1, State.reset.readByte 2, State.reset.readByte 3,
    State.reset.readByte 4] = [0xF0, 0x90, 0x90, 0x90, 0xF0]

/-- The framebuffer read gives the host the whole grid and changes nothing (R312). -/
def Obligations.FramebufferReadChangesNothing : Prop := ∀ s : State,
  operate .readFramebuffer s = .next s ∧ ∀ px py, fbCell s.framebufferRead px py = fbCell s.fb px py
end

