-- ==== Sys2Proof/Laws/Memory.lean ====
section
/-!
SUPPORT. The laws of memory: a read after a write, and that every memory operation keeps the canonical form.
-/

namespace Sys2Proof.Machine

variable {font : Vector Byte 80}

theorem Memory.read_erase_self (a : Nat) (m : List Host.Cell) :
    Memory.read font (Memory.erase a m) a = unlistedByte font a := by
  induction m with
  | nil => rfl
  | cons c m ih =>
    obtain ⟨b, u⟩ := c
    by_cases h : b = a <;> simp [Memory.erase, Memory.read, h, ih]

theorem Memory.read_erase_other {a a' : Nat} (h : a' ≠ a) (m : List Host.Cell) :
    Memory.read font (Memory.erase a m) a' = Memory.read font m a' := by
  induction m with
  | nil => rfl
  | cons c m ih =>
    obtain ⟨b, u⟩ := c
    by_cases hb : b = a
    · simp [Memory.erase, Memory.read, hb, ih, Ne.symm h]
    · by_cases hb' : b = a' <;> simp [Memory.erase, Memory.read, hb, hb', h, ih]

theorem Memory.read_insert_other {a a' : Nat} (h : a' ≠ a) (b : Byte) (m : List Host.Cell) :
    Memory.read font (Memory.insert a b m) a' = Memory.read font m a' := by
  induction m with
  | nil => simp [Memory.insert, Memory.read, Ne.symm h]
  | cons c m ih =>
    obtain ⟨c, u⟩ := c
    by_cases hc : a < c
    · simp [Memory.insert, Memory.read, hc, Ne.symm h]
    · simp only [Memory.insert, if_neg hc, Memory.read, ih]

/-- An inserted cell is the one read, when no other cell lists the address. -/
theorem Memory.read_insert_self (a : Nat) (b : Byte) (m : List Host.Cell) :
    Memory.read font (Memory.insert a b (Memory.erase a m)) a = b := by
  induction m with
  | nil => simp [Memory.erase, Memory.insert, Memory.read]
  | cons c m ih =>
    obtain ⟨c, u⟩ := c
    by_cases hc : c = a
    · simpa [Memory.erase, hc] using ih
    · by_cases hl : a < c <;> simp [Memory.erase, Memory.insert, Memory.read, hc, hl, ih]

/-- A read after a write gives the byte written, in every memory. -/
@[simp] theorem Memory.read_write_self (m : List Host.Cell) (a : Nat) (b : Byte) :
    Memory.read font (Memory.write font m a b) a = b := by
  by_cases h : b = unlistedByte font a
  · simpa [Memory.write, h] using Memory.read_erase_self a m
  · simpa [Memory.write, h] using Memory.read_insert_self a b m

/-- A write leaves every other address alone, in every memory. -/
theorem Memory.read_write_other (m : List Host.Cell) {a a' : Nat} (h : a' ≠ a) (b : Byte) :
    Memory.read font (Memory.write font m a b) a' = Memory.read font m a' := by
  by_cases hb : b = unlistedByte font a
  · simpa [Memory.write, hb] using Memory.read_erase_other h m
  · simpa [Memory.write, hb] using (Memory.read_insert_other h b _).trans (Memory.read_erase_other h m)

theorem Memory.read_write (m : List Host.Cell) (a a' : Nat) (b : Byte) :
    Memory.read font (Memory.write font m a b) a' = if a' = a then b else Memory.read font m a' := by
  by_cases h : a' = a
  · simp [h]
  · simp [h, Memory.read_write_other m h b]

/-- A copy holds its bytes at a, a+1, ... and leaves every other address alone. -/
theorem Memory.read_copy (m : List Host.Cell) (bs : List Byte) : ∀ a a' : Nat,
    Memory.read font (Memory.copy font m a bs) a' =
      if h : a ≤ a' ∧ a' < a + bs.length then bs[a' - a]'(by omega) else Memory.read font m a' := by
  induction bs with
  | nil => intro a a'; rw [dif_neg (by simp only [List.length_nil]; omega)]; rfl
  | cons b bs ih =>
    intro a a'
    rw [Memory.copy, Memory.read_write, ih]
    by_cases h : a' = a
    · subst h; simp
    · by_cases h' : a + 1 ≤ a' ∧ a' < a + 1 + bs.length
      · have e : a' - a = (a' - (a + 1)) + 1 := by omega
        have h2 : a ≤ a' ∧ a' < a + (b :: bs).length := by simp only [List.length_cons]; omega
        simp only [if_neg h, dif_pos h', dif_pos h2, e, List.getElem_cons_succ]
      · rw [if_neg h, dif_neg h', dif_neg (by simp only [List.length_cons]; omega)]

/-! ### The canonical form -/

/-- A cell that the canonical form allows. -/
def Memory.cellOk (font : Vector Byte 80) (c : Host.Cell) : Bool :=
  decide (c.1 < Config.memSize) && c.2 != unlistedByte font c.1

theorem Memory.wf_iff (m : List Host.Cell) :
    Memory.wf font m = true ↔ Memory.rising 0 m = true ∧ ∀ c ∈ m, Memory.cellOk font c = true := by
  simp only [Memory.wf, Bool.and_eq_true, List.all_eq_true, Memory.cellOk]

theorem Memory.rising_mono {low low' : Nat} (h : low' ≤ low) {m : List Host.Cell} (hm : Memory.rising low m = true) :
    Memory.rising low' m = true := by
  cases m with
  | nil => rfl
  | cons c m =>
    simp only [Memory.rising, Bool.and_eq_true, decide_eq_true_eq] at hm ⊢
    exact ⟨h.trans hm.1, hm.2⟩

theorem Memory.rising_erase (a : Nat) (m : List Host.Cell) :
    ∀ low, Memory.rising low m = true → Memory.rising low (Memory.erase a m) = true := by
  induction m with
  | nil => intro _ _; rfl
  | cons c m ih =>
    obtain ⟨c, u⟩ := c
    intro low h
    simp only [Memory.rising, Bool.and_eq_true, decide_eq_true_eq] at h
    by_cases hc : c = a
    · simp only [Memory.erase, if_pos hc]
      exact Memory.rising_mono (by omega) (ih _ h.2)
    · simp only [Memory.erase, if_neg hc, Memory.rising, Bool.and_eq_true, decide_eq_true_eq]
      exact ⟨h.1, ih _ h.2⟩

theorem Memory.mem_erase (a : Nat) {m : List Host.Cell} {c : Host.Cell} (h : c ∈ Memory.erase a m) : c ∈ m ∧ c.1 ≠ a := by
  induction m with
  | nil => simp [Memory.erase] at h
  | cons d m ih =>
    obtain ⟨d, u⟩ := d
    by_cases hd : d = a
    · rw [Memory.erase, if_pos hd] at h
      exact ⟨List.mem_cons_of_mem _ (ih h).1, (ih h).2⟩
    · rw [Memory.erase, if_neg hd] at h
      obtain rfl | h := List.mem_cons.mp h
      · exact ⟨List.mem_cons_self, hd⟩
      · exact ⟨List.mem_cons_of_mem _ (ih h).1, (ih h).2⟩

theorem Memory.mem_insert {a : Nat} {b : Byte} {m : List Host.Cell} {c : Host.Cell} (h : c ∈ Memory.insert a b m) :
    c = (a, b) ∨ c ∈ m := by
  induction m with
  | nil => simpa [Memory.insert] using h
  | cons d m ih =>
    obtain ⟨d, u⟩ := d
    by_cases hd : a < d
    · rw [Memory.insert, if_pos hd] at h
      simpa using h
    · rw [Memory.insert, if_neg hd] at h
      obtain rfl | h := List.mem_cons.mp h
      · exact Or.inr List.mem_cons_self
      · exact (ih h).imp id (List.mem_cons_of_mem _)

theorem Memory.rising_insert {a : Nat} {b : Byte} (m : List Host.Cell) :
    ∀ low, low ≤ a → (∀ c ∈ m, c.1 ≠ a) → Memory.rising low m = true → Memory.rising low (Memory.insert a b m) = true := by
  induction m with
  | nil => intro low h _ _; simpa [Memory.insert, Memory.rising] using h
  | cons c m ih =>
    obtain ⟨c, u⟩ := c
    intro low hl hne h
    simp only [Memory.rising, Bool.and_eq_true, decide_eq_true_eq] at h
    have hca : c ≠ a := hne (c, u) List.mem_cons_self
    by_cases hc : a < c
    · simp only [Memory.insert, if_pos hc, Memory.rising, Bool.and_eq_true, decide_eq_true_eq]
      exact ⟨hl, by omega, h.2⟩
    · simp only [Memory.insert, if_neg hc, Memory.rising, Bool.and_eq_true, decide_eq_true_eq]
      exact ⟨h.1, ih _ (by omega) (fun d hd => hne d (List.mem_cons_of_mem _ hd)) h.2⟩

/-- A write inside the 4096 bytes keeps the canonical form. -/
theorem Memory.wf_write {m : List Host.Cell} (h : Memory.wf font m = true) {a : Nat} (ha : a < 4096) (b : Byte) :
    Memory.wf font (Memory.write font m a b) = true := by
  rw [Memory.wf_iff] at h ⊢
  have he := Memory.rising_erase a m 0 h.1
  by_cases hb : b = unlistedByte font a
  · simp only [Memory.write, if_pos hb]
    exact ⟨he, fun c hc => h.2 c (Memory.mem_erase a hc).1⟩
  · simp only [Memory.write, if_neg hb]
    refine ⟨Memory.rising_insert _ 0 (Nat.zero_le _) (fun c hc => (Memory.mem_erase a hc).2) he, fun c hc => ?_⟩
    obtain rfl | hc := Memory.mem_insert hc
    · simp [Memory.cellOk, Config.memSize, ha, hb]
    · exact h.2 c (Memory.mem_erase a hc).1

/-- A copy inside the 4096 bytes keeps the canonical form. -/
theorem Memory.wf_copy {m : List Host.Cell} (h : Memory.wf font m = true) (bs : List Byte) :
    ∀ a, a + bs.length ≤ 4096 → Memory.wf font (Memory.copy font m a bs) = true := by
  induction bs with
  | nil => intro _ _; exact h
  | cons b bs ih =>
    intro a ha
    rw [List.length_cons] at ha
    exact Memory.wf_write (ih (a + 1) (by omega)) (by omega) b

/-- The empty list is canonical: memory right after create. -/
theorem Memory.wf_nil : Memory.wf font [] = true := rfl

/-- A canonical memory holds no cell below the first one. -/
theorem Memory.read_below {m : List Host.Cell} {a : Nat} : ∀ {low : Nat}, Memory.rising low m = true → a < low →
    Memory.read font m a = unlistedByte font a := by
  induction m with
  | nil => intro _ _ _; rfl
  | cons c m ih =>
    obtain ⟨c, u⟩ := c
    intro low h ha
    simp only [Memory.rising, Bool.and_eq_true, decide_eq_true_eq] at h
    rw [Memory.read, if_neg (by omega)]
    exact ih h.2 (by omega)

/-- Equal memories are equal data: two canonical lists that read alike are the same list. -/
theorem Memory.ext_of_rising {m : List Host.Cell} : ∀ {m' : List Host.Cell} {low : Nat},
    Memory.rising low m = true → Memory.rising low m' = true →
    (∀ c ∈ m, Memory.cellOk font c = true) → (∀ c ∈ m', Memory.cellOk font c = true) →
    (∀ a, Memory.read font m a = Memory.read font m' a) → m = m' := by
  have listed : ∀ {c : Host.Cell} {m m' : List Host.Cell}, Memory.rising (c.1 + 1) m' = true →
      Memory.cellOk font c = true → ¬ ∀ a, Memory.read font (c :: m) a = Memory.read font m' a := by
    intro c m m' h hc he
    have := he c.1
    rw [Memory.read_below h (Nat.lt_succ_self _), Memory.read, if_pos rfl] at this
    simp [Memory.cellOk, this] at hc
  induction m with
  | nil =>
    intro m' low _ h' _ ok' he
    cases m' with
    | nil => rfl
    | cons c m' =>
      exact absurd (fun a => (he a).symm) (listed (m := m') (m' := []) rfl (ok' c List.mem_cons_self))
  | cons c m ih =>
    intro m' low h h' ok ok' he
    cases m' with
    | nil => exact absurd he (listed (m' := []) rfl (ok c List.mem_cons_self))
    | cons d m' =>
      obtain ⟨c, u⟩ := c
      obtain ⟨d, w⟩ := d
      have hm := h
      have hm' := h'
      simp only [Memory.rising, Bool.and_eq_true, decide_eq_true_eq] at hm hm'
      have hcd : c = d := by
        rcases Nat.lt_trichotomy c d with hlt | heq | hgt
        · refine absurd he (listed ?_ (ok (c, u) List.mem_cons_self))
          simp only [Memory.rising, Bool.and_eq_true, decide_eq_true_eq]
          exact ⟨hlt, hm'.2⟩
        · exact heq
        · refine absurd (fun a => (he a).symm) (listed ?_ (ok' (d, w) List.mem_cons_self))
          simp only [Memory.rising, Bool.and_eq_true, decide_eq_true_eq]
          exact ⟨hgt, hm.2⟩
      subst hcd
      have huw : u = w := by simpa [Memory.read] using he c
      subst huw
      have : m = m' := ih hm.2 hm'.2 (fun x hx => ok x (List.mem_cons_of_mem _ hx))
        (fun x hx => ok' x (List.mem_cons_of_mem _ hx)) (fun a => by
          by_cases ha : c = a
          · subst ha
            rw [Memory.read_below hm.2 (Nat.lt_succ_self _), Memory.read_below hm'.2 (Nat.lt_succ_self _)]
          · simpa [Memory.read, ha] using he a)
      rw [this]

theorem Memory.ext {m m' : List Host.Cell} (h : Memory.wf font m = true) (h' : Memory.wf font m' = true)
    (he : ∀ a, Memory.read font m a = Memory.read font m' a) : m = m' := by
  rw [Memory.wf_iff] at h h'
  exact Memory.ext_of_rising h.1 h'.1 h.2 h'.2 he

end Sys2Proof.Machine
end

