-- ==== Sys2Proof/Laws/State.lean ====
section
/-!
SUPPORT. One lemma per field of the state and per update of it: what the update leaves in the field. Later proofs
rewrite with these and do not unfold a record update.
-/

namespace Sys2Proof.Machine

/-! ### writeV -/

@[simp] theorem State.writeV_v (s : State) (r : Reg) (b : Byte) : (s.writeV r b).v = s.v.set r.val b r.isLt := rfl
@[simp] theorem State.writeV_regI (s : State) (r : Reg) (b : Byte) : (s.writeV r b).regI = s.regI := rfl
@[simp] theorem State.writeV_pc (s : State) (r : Reg) (b : Byte) : (s.writeV r b).pc = s.pc := rfl
@[simp] theorem State.writeV_stack (s : State) (r : Reg) (b : Byte) : (s.writeV r b).stack = s.stack := rfl
@[simp] theorem State.writeV_sp (s : State) (r : Reg) (b : Byte) : (s.writeV r b).sp = s.sp := rfl
@[simp] theorem State.writeV_dt (s : State) (r : Reg) (b : Byte) : (s.writeV r b).dt = s.dt := rfl
@[simp] theorem State.writeV_st (s : State) (r : Reg) (b : Byte) : (s.writeV r b).st = s.st := rfl
@[simp] theorem State.writeV_key (s : State) (r : Reg) (b : Byte) : (s.writeV r b).key = s.key := rfl
@[simp] theorem State.writeV_fb (s : State) (r : Reg) (b : Byte) : (s.writeV r b).fb = s.fb := rfl
@[simp] theorem State.writeV_mem (s : State) (r : Reg) (b : Byte) : (s.writeV r b).mem = s.mem := rfl
@[simp] theorem State.writeV_status (s : State) (r : Reg) (b : Byte) : (s.writeV r b).status = s.status := rfl
@[simp] theorem State.writeV_loaded (s : State) (r : Reg) (b : Byte) : (s.writeV r b).loaded = s.loaded := rfl
@[simp] theorem State.writeV_params (s : State) (r : Reg) (b : Byte) : (s.writeV r b).params = s.params := rfl
@[simp] theorem State.writeV_draws (s : State) (r : Reg) (b : Byte) : (s.writeV r b).draws = s.draws := rfl
@[simp] theorem State.writeV_soundEvents (s : State) (r : Reg) (b : Byte) : (s.writeV r b).soundEvents = s.soundEvents := rfl
@[simp] theorem State.writeV_schedule (s : State) (r : Reg) (b : Byte) : (s.writeV r b).schedule = s.schedule := rfl

/-! ### writeVF -/

@[simp] theorem State.writeVF_v (s : State) (b : Byte) : (s.writeVF b).v = s.v.set 15 b := rfl
@[simp] theorem State.writeVF_regI (s : State) (b : Byte) : (s.writeVF b).regI = s.regI := rfl
@[simp] theorem State.writeVF_pc (s : State) (b : Byte) : (s.writeVF b).pc = s.pc := rfl
@[simp] theorem State.writeVF_stack (s : State) (b : Byte) : (s.writeVF b).stack = s.stack := rfl
@[simp] theorem State.writeVF_sp (s : State) (b : Byte) : (s.writeVF b).sp = s.sp := rfl
@[simp] theorem State.writeVF_dt (s : State) (b : Byte) : (s.writeVF b).dt = s.dt := rfl
@[simp] theorem State.writeVF_st (s : State) (b : Byte) : (s.writeVF b).st = s.st := rfl
@[simp] theorem State.writeVF_key (s : State) (b : Byte) : (s.writeVF b).key = s.key := rfl
@[simp] theorem State.writeVF_fb (s : State) (b : Byte) : (s.writeVF b).fb = s.fb := rfl
@[simp] theorem State.writeVF_mem (s : State) (b : Byte) : (s.writeVF b).mem = s.mem := rfl
@[simp] theorem State.writeVF_status (s : State) (b : Byte) : (s.writeVF b).status = s.status := rfl
@[simp] theorem State.writeVF_loaded (s : State) (b : Byte) : (s.writeVF b).loaded = s.loaded := rfl
@[simp] theorem State.writeVF_params (s : State) (b : Byte) : (s.writeVF b).params = s.params := rfl
@[simp] theorem State.writeVF_draws (s : State) (b : Byte) : (s.writeVF b).draws = s.draws := rfl
@[simp] theorem State.writeVF_soundEvents (s : State) (b : Byte) : (s.writeVF b).soundEvents = s.soundEvents := rfl
@[simp] theorem State.writeVF_schedule (s : State) (b : Byte) : (s.writeVF b).schedule = s.schedule := rfl

/-! ### writeWithFlag -/

@[simp] theorem State.writeWithFlag_v (s : State) (x : Reg) (a b : Byte) : (s.writeWithFlag x a b).v = (s.v.set x.val a x.isLt).set 15 b := rfl
@[simp] theorem State.writeWithFlag_regI (s : State) (x : Reg) (a b : Byte) : (s.writeWithFlag x a b).regI = s.regI := rfl
@[simp] theorem State.writeWithFlag_pc (s : State) (x : Reg) (a b : Byte) : (s.writeWithFlag x a b).pc = s.pc := rfl
@[simp] theorem State.writeWithFlag_stack (s : State) (x : Reg) (a b : Byte) : (s.writeWithFlag x a b).stack = s.stack := rfl
@[simp] theorem State.writeWithFlag_sp (s : State) (x : Reg) (a b : Byte) : (s.writeWithFlag x a b).sp = s.sp := rfl
@[simp] theorem State.writeWithFlag_dt (s : State) (x : Reg) (a b : Byte) : (s.writeWithFlag x a b).dt = s.dt := rfl
@[simp] theorem State.writeWithFlag_st (s : State) (x : Reg) (a b : Byte) : (s.writeWithFlag x a b).st = s.st := rfl
@[simp] theorem State.writeWithFlag_key (s : State) (x : Reg) (a b : Byte) : (s.writeWithFlag x a b).key = s.key := rfl
@[simp] theorem State.writeWithFlag_fb (s : State) (x : Reg) (a b : Byte) : (s.writeWithFlag x a b).fb = s.fb := rfl
@[simp] theorem State.writeWithFlag_mem (s : State) (x : Reg) (a b : Byte) : (s.writeWithFlag x a b).mem = s.mem := rfl
@[simp] theorem State.writeWithFlag_status (s : State) (x : Reg) (a b : Byte) : (s.writeWithFlag x a b).status = s.status := rfl
@[simp] theorem State.writeWithFlag_loaded (s : State) (x : Reg) (a b : Byte) : (s.writeWithFlag x a b).loaded = s.loaded := rfl
@[simp] theorem State.writeWithFlag_params (s : State) (x : Reg) (a b : Byte) : (s.writeWithFlag x a b).params = s.params := rfl
@[simp] theorem State.writeWithFlag_draws (s : State) (x : Reg) (a b : Byte) : (s.writeWithFlag x a b).draws = s.draws := rfl
@[simp] theorem State.writeWithFlag_soundEvents (s : State) (x : Reg) (a b : Byte) : (s.writeWithFlag x a b).soundEvents = s.soundEvents := rfl
@[simp] theorem State.writeWithFlag_schedule (s : State) (x : Reg) (a b : Byte) : (s.writeWithFlag x a b).schedule = s.schedule := rfl

/-! ### writeI -/

@[simp] theorem State.writeI_v (s : State) (w : Word) : (s.writeI w).v = s.v := rfl
@[simp] theorem State.writeI_regI (s : State) (w : Word) : (s.writeI w).regI = w := rfl
@[simp] theorem State.writeI_pc (s : State) (w : Word) : (s.writeI w).pc = s.pc := rfl
@[simp] theorem State.writeI_stack (s : State) (w : Word) : (s.writeI w).stack = s.stack := rfl
@[simp] theorem State.writeI_sp (s : State) (w : Word) : (s.writeI w).sp = s.sp := rfl
@[simp] theorem State.writeI_dt (s : State) (w : Word) : (s.writeI w).dt = s.dt := rfl
@[simp] theorem State.writeI_st (s : State) (w : Word) : (s.writeI w).st = s.st := rfl
@[simp] theorem State.writeI_key (s : State) (w : Word) : (s.writeI w).key = s.key := rfl
@[simp] theorem State.writeI_fb (s : State) (w : Word) : (s.writeI w).fb = s.fb := rfl
@[simp] theorem State.writeI_mem (s : State) (w : Word) : (s.writeI w).mem = s.mem := rfl
@[simp] theorem State.writeI_status (s : State) (w : Word) : (s.writeI w).status = s.status := rfl
@[simp] theorem State.writeI_loaded (s : State) (w : Word) : (s.writeI w).loaded = s.loaded := rfl
@[simp] theorem State.writeI_params (s : State) (w : Word) : (s.writeI w).params = s.params := rfl
@[simp] theorem State.writeI_draws (s : State) (w : Word) : (s.writeI w).draws = s.draws := rfl
@[simp] theorem State.writeI_soundEvents (s : State) (w : Word) : (s.writeI w).soundEvents = s.soundEvents := rfl
@[simp] theorem State.writeI_schedule (s : State) (w : Word) : (s.writeI w).schedule = s.schedule := rfl

/-! ### jump -/

@[simp] theorem State.jump_v (s : State) (w : Word) : (s.jump w).v = s.v := rfl
@[simp] theorem State.jump_regI (s : State) (w : Word) : (s.jump w).regI = s.regI := rfl
@[simp] theorem State.jump_pc (s : State) (w : Word) : (s.jump w).pc = w := rfl
@[simp] theorem State.jump_stack (s : State) (w : Word) : (s.jump w).stack = s.stack := rfl
@[simp] theorem State.jump_sp (s : State) (w : Word) : (s.jump w).sp = s.sp := rfl
@[simp] theorem State.jump_dt (s : State) (w : Word) : (s.jump w).dt = s.dt := rfl
@[simp] theorem State.jump_st (s : State) (w : Word) : (s.jump w).st = s.st := rfl
@[simp] theorem State.jump_key (s : State) (w : Word) : (s.jump w).key = s.key := rfl
@[simp] theorem State.jump_fb (s : State) (w : Word) : (s.jump w).fb = s.fb := rfl
@[simp] theorem State.jump_mem (s : State) (w : Word) : (s.jump w).mem = s.mem := rfl
@[simp] theorem State.jump_status (s : State) (w : Word) : (s.jump w).status = s.status := rfl
@[simp] theorem State.jump_loaded (s : State) (w : Word) : (s.jump w).loaded = s.loaded := rfl
@[simp] theorem State.jump_params (s : State) (w : Word) : (s.jump w).params = s.params := rfl
@[simp] theorem State.jump_draws (s : State) (w : Word) : (s.jump w).draws = s.draws := rfl
@[simp] theorem State.jump_soundEvents (s : State) (w : Word) : (s.jump w).soundEvents = s.soundEvents := rfl
@[simp] theorem State.jump_schedule (s : State) (w : Word) : (s.jump w).schedule = s.schedule := rfl

/-! ### writeDT -/

@[simp] theorem State.writeDT_v (s : State) (b : Byte) : (s.writeDT b).v = s.v := rfl
@[simp] theorem State.writeDT_regI (s : State) (b : Byte) : (s.writeDT b).regI = s.regI := rfl
@[simp] theorem State.writeDT_pc (s : State) (b : Byte) : (s.writeDT b).pc = s.pc := rfl
@[simp] theorem State.writeDT_stack (s : State) (b : Byte) : (s.writeDT b).stack = s.stack := rfl
@[simp] theorem State.writeDT_sp (s : State) (b : Byte) : (s.writeDT b).sp = s.sp := rfl
@[simp] theorem State.writeDT_dt (s : State) (b : Byte) : (s.writeDT b).dt = b := rfl
@[simp] theorem State.writeDT_st (s : State) (b : Byte) : (s.writeDT b).st = s.st := rfl
@[simp] theorem State.writeDT_key (s : State) (b : Byte) : (s.writeDT b).key = s.key := rfl
@[simp] theorem State.writeDT_fb (s : State) (b : Byte) : (s.writeDT b).fb = s.fb := rfl
@[simp] theorem State.writeDT_mem (s : State) (b : Byte) : (s.writeDT b).mem = s.mem := rfl
@[simp] theorem State.writeDT_status (s : State) (b : Byte) : (s.writeDT b).status = s.status := rfl
@[simp] theorem State.writeDT_loaded (s : State) (b : Byte) : (s.writeDT b).loaded = s.loaded := rfl
@[simp] theorem State.writeDT_params (s : State) (b : Byte) : (s.writeDT b).params = s.params := rfl
@[simp] theorem State.writeDT_draws (s : State) (b : Byte) : (s.writeDT b).draws = s.draws := rfl
@[simp] theorem State.writeDT_soundEvents (s : State) (b : Byte) : (s.writeDT b).soundEvents = s.soundEvents := rfl
@[simp] theorem State.writeDT_schedule (s : State) (b : Byte) : (s.writeDT b).schedule = s.schedule := rfl

/-! ### writeST -/

@[simp] theorem State.writeST_v (s : State) (b : Byte) : (s.writeST b).v = s.v := rfl
@[simp] theorem State.writeST_regI (s : State) (b : Byte) : (s.writeST b).regI = s.regI := rfl
@[simp] theorem State.writeST_pc (s : State) (b : Byte) : (s.writeST b).pc = s.pc := rfl
@[simp] theorem State.writeST_stack (s : State) (b : Byte) : (s.writeST b).stack = s.stack := rfl
@[simp] theorem State.writeST_sp (s : State) (b : Byte) : (s.writeST b).sp = s.sp := rfl
@[simp] theorem State.writeST_dt (s : State) (b : Byte) : (s.writeST b).dt = s.dt := rfl
@[simp] theorem State.writeST_st (s : State) (b : Byte) : (s.writeST b).st = b := rfl
@[simp] theorem State.writeST_key (s : State) (b : Byte) : (s.writeST b).key = s.key := rfl
@[simp] theorem State.writeST_fb (s : State) (b : Byte) : (s.writeST b).fb = s.fb := rfl
@[simp] theorem State.writeST_mem (s : State) (b : Byte) : (s.writeST b).mem = s.mem := rfl
@[simp] theorem State.writeST_status (s : State) (b : Byte) : (s.writeST b).status = s.status := rfl
@[simp] theorem State.writeST_loaded (s : State) (b : Byte) : (s.writeST b).loaded = s.loaded := rfl
@[simp] theorem State.writeST_params (s : State) (b : Byte) : (s.writeST b).params = s.params := rfl
@[simp] theorem State.writeST_draws (s : State) (b : Byte) : (s.writeST b).draws = s.draws := rfl
@[simp] theorem State.writeST_soundEvents (s : State) (b : Byte) : (s.writeST b).soundEvents = s.soundEvents := rfl
@[simp] theorem State.writeST_schedule (s : State) (b : Byte) : (s.writeST b).schedule = s.schedule := rfl

/-! ### writeByte -/

@[simp] theorem State.writeByte_v (s : State) (a : Addr) (b : Byte) : (s.writeByte a b).v = s.v := rfl
@[simp] theorem State.writeByte_regI (s : State) (a : Addr) (b : Byte) : (s.writeByte a b).regI = s.regI := rfl
@[simp] theorem State.writeByte_pc (s : State) (a : Addr) (b : Byte) : (s.writeByte a b).pc = s.pc := rfl
@[simp] theorem State.writeByte_stack (s : State) (a : Addr) (b : Byte) : (s.writeByte a b).stack = s.stack := rfl
@[simp] theorem State.writeByte_sp (s : State) (a : Addr) (b : Byte) : (s.writeByte a b).sp = s.sp := rfl
@[simp] theorem State.writeByte_dt (s : State) (a : Addr) (b : Byte) : (s.writeByte a b).dt = s.dt := rfl
@[simp] theorem State.writeByte_st (s : State) (a : Addr) (b : Byte) : (s.writeByte a b).st = s.st := rfl
@[simp] theorem State.writeByte_key (s : State) (a : Addr) (b : Byte) : (s.writeByte a b).key = s.key := rfl
@[simp] theorem State.writeByte_fb (s : State) (a : Addr) (b : Byte) : (s.writeByte a b).fb = s.fb := rfl
@[simp] theorem State.writeByte_mem (s : State) (a : Addr) (b : Byte) : (s.writeByte a b).mem = Memory.write s.params.font s.mem a.toNat b := rfl
@[simp] theorem State.writeByte_status (s : State) (a : Addr) (b : Byte) : (s.writeByte a b).status = s.status := rfl
@[simp] theorem State.writeByte_loaded (s : State) (a : Addr) (b : Byte) : (s.writeByte a b).loaded = s.loaded := rfl
@[simp] theorem State.writeByte_params (s : State) (a : Addr) (b : Byte) : (s.writeByte a b).params = s.params := rfl
@[simp] theorem State.writeByte_draws (s : State) (a : Addr) (b : Byte) : (s.writeByte a b).draws = s.draws := rfl
@[simp] theorem State.writeByte_soundEvents (s : State) (a : Addr) (b : Byte) : (s.writeByte a b).soundEvents = s.soundEvents := rfl
@[simp] theorem State.writeByte_schedule (s : State) (a : Addr) (b : Byte) : (s.writeByte a b).schedule = s.schedule := rfl

/-! ### writeData -/

@[simp] theorem State.writeData_v (s : State) (k : Nat) (b : Byte) : (s.writeData k b).v = s.v := rfl
@[simp] theorem State.writeData_regI (s : State) (k : Nat) (b : Byte) : (s.writeData k b).regI = s.regI := rfl
@[simp] theorem State.writeData_pc (s : State) (k : Nat) (b : Byte) : (s.writeData k b).pc = s.pc := rfl
@[simp] theorem State.writeData_stack (s : State) (k : Nat) (b : Byte) : (s.writeData k b).stack = s.stack := rfl
@[simp] theorem State.writeData_sp (s : State) (k : Nat) (b : Byte) : (s.writeData k b).sp = s.sp := rfl
@[simp] theorem State.writeData_dt (s : State) (k : Nat) (b : Byte) : (s.writeData k b).dt = s.dt := rfl
@[simp] theorem State.writeData_st (s : State) (k : Nat) (b : Byte) : (s.writeData k b).st = s.st := rfl
@[simp] theorem State.writeData_key (s : State) (k : Nat) (b : Byte) : (s.writeData k b).key = s.key := rfl
@[simp] theorem State.writeData_fb (s : State) (k : Nat) (b : Byte) : (s.writeData k b).fb = s.fb := rfl
@[simp] theorem State.writeData_mem (s : State) (k : Nat) (b : Byte) : (s.writeData k b).mem = Memory.write s.params.font s.mem (s.dataAddr k).toNat b := rfl
@[simp] theorem State.writeData_status (s : State) (k : Nat) (b : Byte) : (s.writeData k b).status = s.status := rfl
@[simp] theorem State.writeData_loaded (s : State) (k : Nat) (b : Byte) : (s.writeData k b).loaded = s.loaded := rfl
@[simp] theorem State.writeData_params (s : State) (k : Nat) (b : Byte) : (s.writeData k b).params = s.params := rfl
@[simp] theorem State.writeData_draws (s : State) (k : Nat) (b : Byte) : (s.writeData k b).draws = s.draws := rfl
@[simp] theorem State.writeData_soundEvents (s : State) (k : Nat) (b : Byte) : (s.writeData k b).soundEvents = s.soundEvents := rfl
@[simp] theorem State.writeData_schedule (s : State) (k : Nat) (b : Byte) : (s.writeData k b).schedule = s.schedule := rfl

/-! ### raise -/

@[simp] theorem State.raise_v (s : State) (f : Fatal) : (s.raise f).v = s.v := rfl
@[simp] theorem State.raise_regI (s : State) (f : Fatal) : (s.raise f).regI = s.regI := rfl
@[simp] theorem State.raise_pc (s : State) (f : Fatal) : (s.raise f).pc = s.pc := rfl
@[simp] theorem State.raise_stack (s : State) (f : Fatal) : (s.raise f).stack = s.stack := rfl
@[simp] theorem State.raise_sp (s : State) (f : Fatal) : (s.raise f).sp = s.sp := rfl
@[simp] theorem State.raise_dt (s : State) (f : Fatal) : (s.raise f).dt = s.dt := rfl
@[simp] theorem State.raise_st (s : State) (f : Fatal) : (s.raise f).st = s.st := rfl
@[simp] theorem State.raise_key (s : State) (f : Fatal) : (s.raise f).key = s.key := rfl
@[simp] theorem State.raise_fb (s : State) (f : Fatal) : (s.raise f).fb = s.fb := rfl
@[simp] theorem State.raise_mem (s : State) (f : Fatal) : (s.raise f).mem = s.mem := rfl
@[simp] theorem State.raise_status (s : State) (f : Fatal) : (s.raise f).status = .halted f := rfl
@[simp] theorem State.raise_loaded (s : State) (f : Fatal) : (s.raise f).loaded = s.loaded := rfl
@[simp] theorem State.raise_params (s : State) (f : Fatal) : (s.raise f).params = s.params := rfl
@[simp] theorem State.raise_draws (s : State) (f : Fatal) : (s.raise f).draws = s.draws := rfl
@[simp] theorem State.raise_soundEvents (s : State) (f : Fatal) : (s.raise f).soundEvents = s.soundEvents := rfl
@[simp] theorem State.raise_schedule (s : State) (f : Fatal) : (s.raise f).schedule = s.schedule := rfl

/-! ### countDraw -/

@[simp] theorem State.countDraw_v (s : State) : (s.countDraw).v = s.v := rfl
@[simp] theorem State.countDraw_regI (s : State) : (s.countDraw).regI = s.regI := rfl
@[simp] theorem State.countDraw_pc (s : State) : (s.countDraw).pc = s.pc := rfl
@[simp] theorem State.countDraw_stack (s : State) : (s.countDraw).stack = s.stack := rfl
@[simp] theorem State.countDraw_sp (s : State) : (s.countDraw).sp = s.sp := rfl
@[simp] theorem State.countDraw_dt (s : State) : (s.countDraw).dt = s.dt := rfl
@[simp] theorem State.countDraw_st (s : State) : (s.countDraw).st = s.st := rfl
@[simp] theorem State.countDraw_key (s : State) : (s.countDraw).key = s.key := rfl
@[simp] theorem State.countDraw_fb (s : State) : (s.countDraw).fb = s.fb := rfl
@[simp] theorem State.countDraw_mem (s : State) : (s.countDraw).mem = s.mem := rfl
@[simp] theorem State.countDraw_status (s : State) : (s.countDraw).status = s.status := rfl
@[simp] theorem State.countDraw_loaded (s : State) : (s.countDraw).loaded = s.loaded := rfl
@[simp] theorem State.countDraw_params (s : State) : (s.countDraw).params = s.params := rfl
@[simp] theorem State.countDraw_draws (s : State) : (s.countDraw).draws = s.draws + 1 := rfl
@[simp] theorem State.countDraw_soundEvents (s : State) : (s.countDraw).soundEvents = s.soundEvents := rfl
@[simp] theorem State.countDraw_schedule (s : State) : (s.countDraw).schedule = s.schedule := rfl

/-! ### setDrawn -/

@[simp] theorem State.setDrawn_v (s : State) (d : Framebuffer × Bool) : (s.setDrawn d).v = s.v.set 15 (flagByte d.2) := rfl
@[simp] theorem State.setDrawn_regI (s : State) (d : Framebuffer × Bool) : (s.setDrawn d).regI = s.regI := rfl
@[simp] theorem State.setDrawn_pc (s : State) (d : Framebuffer × Bool) : (s.setDrawn d).pc = s.pc := rfl
@[simp] theorem State.setDrawn_stack (s : State) (d : Framebuffer × Bool) : (s.setDrawn d).stack = s.stack := rfl
@[simp] theorem State.setDrawn_sp (s : State) (d : Framebuffer × Bool) : (s.setDrawn d).sp = s.sp := rfl
@[simp] theorem State.setDrawn_dt (s : State) (d : Framebuffer × Bool) : (s.setDrawn d).dt = s.dt := rfl
@[simp] theorem State.setDrawn_st (s : State) (d : Framebuffer × Bool) : (s.setDrawn d).st = s.st := rfl
@[simp] theorem State.setDrawn_key (s : State) (d : Framebuffer × Bool) : (s.setDrawn d).key = s.key := rfl
@[simp] theorem State.setDrawn_fb (s : State) (d : Framebuffer × Bool) : (s.setDrawn d).fb = d.1 := rfl
@[simp] theorem State.setDrawn_mem (s : State) (d : Framebuffer × Bool) : (s.setDrawn d).mem = s.mem := rfl
@[simp] theorem State.setDrawn_status (s : State) (d : Framebuffer × Bool) : (s.setDrawn d).status = s.status := rfl
@[simp] theorem State.setDrawn_loaded (s : State) (d : Framebuffer × Bool) : (s.setDrawn d).loaded = s.loaded := rfl
@[simp] theorem State.setDrawn_params (s : State) (d : Framebuffer × Bool) : (s.setDrawn d).params = s.params := rfl
@[simp] theorem State.setDrawn_draws (s : State) (d : Framebuffer × Bool) : (s.setDrawn d).draws = s.draws := rfl
@[simp] theorem State.setDrawn_soundEvents (s : State) (d : Framebuffer × Bool) : (s.setDrawn d).soundEvents = s.soundEvents := rfl
@[simp] theorem State.setDrawn_schedule (s : State) (d : Framebuffer × Bool) : (s.setDrawn d).schedule = s.schedule := rfl

/-! ### takeOp -/

@[simp] theorem State.takeOp_v (s : State) : (s.takeOp).v = s.v := rfl
@[simp] theorem State.takeOp_regI (s : State) : (s.takeOp).regI = s.regI := rfl
@[simp] theorem State.takeOp_pc (s : State) : (s.takeOp).pc = s.pc := rfl
@[simp] theorem State.takeOp_stack (s : State) : (s.takeOp).stack = s.stack := rfl
@[simp] theorem State.takeOp_sp (s : State) : (s.takeOp).sp = s.sp := rfl
@[simp] theorem State.takeOp_dt (s : State) : (s.takeOp).dt = s.dt := rfl
@[simp] theorem State.takeOp_st (s : State) : (s.takeOp).st = s.st := rfl
@[simp] theorem State.takeOp_key (s : State) : (s.takeOp).key = s.key := rfl
@[simp] theorem State.takeOp_fb (s : State) : (s.takeOp).fb = s.fb := rfl
@[simp] theorem State.takeOp_mem (s : State) : (s.takeOp).mem = s.mem := rfl
@[simp] theorem State.takeOp_status (s : State) : (s.takeOp).status = s.status := rfl
@[simp] theorem State.takeOp_loaded (s : State) : (s.takeOp).loaded = s.loaded := rfl
@[simp] theorem State.takeOp_params (s : State) : (s.takeOp).params = s.params := rfl
@[simp] theorem State.takeOp_draws (s : State) : (s.takeOp).draws = s.draws := rfl
@[simp] theorem State.takeOp_soundEvents (s : State) : (s.takeOp).soundEvents = s.soundEvents := rfl
@[simp] theorem State.takeOp_schedule (s : State) : (s.takeOp).schedule = s.schedule.tail := rfl

/-! ### skipIf -/

@[simp] theorem State.skipIf_v (s : State) (c : Bool) : (s.skipIf c).v = s.v := by cases c <;> rfl
@[simp] theorem State.skipIf_regI (s : State) (c : Bool) : (s.skipIf c).regI = s.regI := by cases c <;> rfl
@[simp] theorem State.skipIf_pc (s : State) (c : Bool) : (s.skipIf c).pc = if c then s.pc + 2 else s.pc := by
  cases c <;> rfl
@[simp] theorem State.skipIf_stack (s : State) (c : Bool) : (s.skipIf c).stack = s.stack := by cases c <;> rfl
@[simp] theorem State.skipIf_sp (s : State) (c : Bool) : (s.skipIf c).sp = s.sp := by cases c <;> rfl
@[simp] theorem State.skipIf_dt (s : State) (c : Bool) : (s.skipIf c).dt = s.dt := by cases c <;> rfl
@[simp] theorem State.skipIf_st (s : State) (c : Bool) : (s.skipIf c).st = s.st := by cases c <;> rfl
@[simp] theorem State.skipIf_key (s : State) (c : Bool) : (s.skipIf c).key = s.key := by cases c <;> rfl
@[simp] theorem State.skipIf_fb (s : State) (c : Bool) : (s.skipIf c).fb = s.fb := by cases c <;> rfl
@[simp] theorem State.skipIf_mem (s : State) (c : Bool) : (s.skipIf c).mem = s.mem := by cases c <;> rfl
@[simp] theorem State.skipIf_status (s : State) (c : Bool) : (s.skipIf c).status = s.status := by cases c <;> rfl
@[simp] theorem State.skipIf_loaded (s : State) (c : Bool) : (s.skipIf c).loaded = s.loaded := by cases c <;> rfl
@[simp] theorem State.skipIf_params (s : State) (c : Bool) : (s.skipIf c).params = s.params := by cases c <;> rfl
@[simp] theorem State.skipIf_draws (s : State) (c : Bool) : (s.skipIf c).draws = s.draws := by cases c <;> rfl
@[simp] theorem State.skipIf_soundEvents (s : State) (c : Bool) : (s.skipIf c).soundEvents = s.soundEvents := by cases c <;> rfl
@[simp] theorem State.skipIf_schedule (s : State) (c : Bool) : (s.skipIf c).schedule = s.schedule := by cases c <;> rfl

/-! ### writeDataFrom -/

@[simp] theorem State.writeDataFrom_v (bs : List Byte) :
    ∀ (s : State) (k : Nat), (s.writeDataFrom k bs).v = s.v := by
  induction bs with
  | nil => intros; rfl
  | cons b bs ih => intro s k; exact (ih _ _).trans rfl
@[simp] theorem State.writeDataFrom_regI (bs : List Byte) :
    ∀ (s : State) (k : Nat), (s.writeDataFrom k bs).regI = s.regI := by
  induction bs with
  | nil => intros; rfl
  | cons b bs ih => intro s k; exact (ih _ _).trans rfl
@[simp] theorem State.writeDataFrom_pc (bs : List Byte) :
    ∀ (s : State) (k : Nat), (s.writeDataFrom k bs).pc = s.pc := by
  induction bs with
  | nil => intros; rfl
  | cons b bs ih => intro s k; exact (ih _ _).trans rfl
@[simp] theorem State.writeDataFrom_stack (bs : List Byte) :
    ∀ (s : State) (k : Nat), (s.writeDataFrom k bs).stack = s.stack := by
  induction bs with
  | nil => intros; rfl
  | cons b bs ih => intro s k; exact (ih _ _).trans rfl
@[simp] theorem State.writeDataFrom_sp (bs : List Byte) :
    ∀ (s : State) (k : Nat), (s.writeDataFrom k bs).sp = s.sp := by
  induction bs with
  | nil => intros; rfl
  | cons b bs ih => intro s k; exact (ih _ _).trans rfl
@[simp] theorem State.writeDataFrom_dt (bs : List Byte) :
    ∀ (s : State) (k : Nat), (s.writeDataFrom k bs).dt = s.dt := by
  induction bs with
  | nil => intros; rfl
  | cons b bs ih => intro s k; exact (ih _ _).trans rfl
@[simp] theorem State.writeDataFrom_st (bs : List Byte) :
    ∀ (s : State) (k : Nat), (s.writeDataFrom k bs).st = s.st := by
  induction bs with
  | nil => intros; rfl
  | cons b bs ih => intro s k; exact (ih _ _).trans rfl
@[simp] theorem State.writeDataFrom_key (bs : List Byte) :
    ∀ (s : State) (k : Nat), (s.writeDataFrom k bs).key = s.key := by
  induction bs with
  | nil => intros; rfl
  | cons b bs ih => intro s k; exact (ih _ _).trans rfl
@[simp] theorem State.writeDataFrom_fb (bs : List Byte) :
    ∀ (s : State) (k : Nat), (s.writeDataFrom k bs).fb = s.fb := by
  induction bs with
  | nil => intros; rfl
  | cons b bs ih => intro s k; exact (ih _ _).trans rfl
@[simp] theorem State.writeDataFrom_status (bs : List Byte) :
    ∀ (s : State) (k : Nat), (s.writeDataFrom k bs).status = s.status := by
  induction bs with
  | nil => intros; rfl
  | cons b bs ih => intro s k; exact (ih _ _).trans rfl
@[simp] theorem State.writeDataFrom_loaded (bs : List Byte) :
    ∀ (s : State) (k : Nat), (s.writeDataFrom k bs).loaded = s.loaded := by
  induction bs with
  | nil => intros; rfl
  | cons b bs ih => intro s k; exact (ih _ _).trans rfl
@[simp] theorem State.writeDataFrom_params (bs : List Byte) :
    ∀ (s : State) (k : Nat), (s.writeDataFrom k bs).params = s.params := by
  induction bs with
  | nil => intros; rfl
  | cons b bs ih => intro s k; exact (ih _ _).trans rfl
@[simp] theorem State.writeDataFrom_draws (bs : List Byte) :
    ∀ (s : State) (k : Nat), (s.writeDataFrom k bs).draws = s.draws := by
  induction bs with
  | nil => intros; rfl
  | cons b bs ih => intro s k; exact (ih _ _).trans rfl
@[simp] theorem State.writeDataFrom_soundEvents (bs : List Byte) :
    ∀ (s : State) (k : Nat), (s.writeDataFrom k bs).soundEvents = s.soundEvents := by
  induction bs with
  | nil => intros; rfl
  | cons b bs ih => intro s k; exact (ih _ _).trans rfl
@[simp] theorem State.writeDataFrom_schedule (bs : List Byte) :
    ∀ (s : State) (k : Nat), (s.writeDataFrom k bs).schedule = s.schedule := by
  induction bs with
  | nil => intros; rfl
  | cons b bs ih => intro s k; exact (ih _ _).trans rfl

/-! ### loadFirst -/

@[simp] theorem State.loadFirst_regI (s : State) (n : Nat) : (s.loadFirst n).regI = s.regI := by
  induction n with
  | zero => rfl
  | succ n ih => exact ih
@[simp] theorem State.loadFirst_pc (s : State) (n : Nat) : (s.loadFirst n).pc = s.pc := by
  induction n with
  | zero => rfl
  | succ n ih => exact ih
@[simp] theorem State.loadFirst_stack (s : State) (n : Nat) : (s.loadFirst n).stack = s.stack := by
  induction n with
  | zero => rfl
  | succ n ih => exact ih
@[simp] theorem State.loadFirst_sp (s : State) (n : Nat) : (s.loadFirst n).sp = s.sp := by
  induction n with
  | zero => rfl
  | succ n ih => exact ih
@[simp] theorem State.loadFirst_dt (s : State) (n : Nat) : (s.loadFirst n).dt = s.dt := by
  induction n with
  | zero => rfl
  | succ n ih => exact ih
@[simp] theorem State.loadFirst_st (s : State) (n : Nat) : (s.loadFirst n).st = s.st := by
  induction n with
  | zero => rfl
  | succ n ih => exact ih
@[simp] theorem State.loadFirst_key (s : State) (n : Nat) : (s.loadFirst n).key = s.key := by
  induction n with
  | zero => rfl
  | succ n ih => exact ih
@[simp] theorem State.loadFirst_fb (s : State) (n : Nat) : (s.loadFirst n).fb = s.fb := by
  induction n with
  | zero => rfl
  | succ n ih => exact ih
@[simp] theorem State.loadFirst_mem (s : State) (n : Nat) : (s.loadFirst n).mem = s.mem := by
  induction n with
  | zero => rfl
  | succ n ih => exact ih
@[simp] theorem State.loadFirst_status (s : State) (n : Nat) : (s.loadFirst n).status = s.status := by
  induction n with
  | zero => rfl
  | succ n ih => exact ih
@[simp] theorem State.loadFirst_loaded (s : State) (n : Nat) : (s.loadFirst n).loaded = s.loaded := by
  induction n with
  | zero => rfl
  | succ n ih => exact ih
@[simp] theorem State.loadFirst_params (s : State) (n : Nat) : (s.loadFirst n).params = s.params := by
  induction n with
  | zero => rfl
  | succ n ih => exact ih
@[simp] theorem State.loadFirst_draws (s : State) (n : Nat) : (s.loadFirst n).draws = s.draws := by
  induction n with
  | zero => rfl
  | succ n ih => exact ih
@[simp] theorem State.loadFirst_soundEvents (s : State) (n : Nat) : (s.loadFirst n).soundEvents = s.soundEvents := by
  induction n with
  | zero => rfl
  | succ n ih => exact ih
@[simp] theorem State.loadFirst_schedule (s : State) (n : Nat) : (s.loadFirst n).schedule = s.schedule := by
  induction n with
  | zero => rfl
  | succ n ih => exact ih

end Sys2Proof.Machine
end

