-- ==== Sys2Proof/Laws/Ops.lean ====
section
/-!
SUPPORT. One lemma per shared operation: what it reads after what was written, and everything it can answer.
-/

namespace Sys2Proof.Machine

/-! ### Registers -/

theorem State.readV_writeV (s : State) (x r : Reg) (b : Byte) :
    (s.writeV x b).readV r = if r = x then b else s.readV r := by
  simp only [State.readV, State.writeV, Vector.get_eq_getElem, Vector.getElem_set, Fin.ext_iff]
  by_cases h : r.val = x.val
  · simp [h]
  · simp [h, Ne.symm h]

@[simp] theorem State.readV_writeV_self (s : State) (x : Reg) (b : Byte) : (s.writeV x b).readV x = b := by
  simp [State.readV_writeV]

theorem State.readV_writeVF (s : State) (r : Reg) (b : Byte) :
    (s.writeVF b).readV r = if r = 15 then b else s.readV r := State.readV_writeV s 15 r b

/-- The flag is the last write, so it is what VF holds, also when x = F (R33). -/
theorem State.readV_writeWithFlag (s : State) (x r : Reg) (a b : Byte) :
    (s.writeWithFlag x a b).readV r = if r = 15 then b else if r = x then a else s.readV r := by
  rw [State.writeWithFlag, State.readV_writeVF, State.readV_writeV]

@[simp] theorem State.readV_writeI (s : State) (w : Word) (r : Reg) : (s.writeI w).readV r = s.readV r := rfl
@[simp] theorem State.readV_jump (s : State) (w : Word) (r : Reg) : (s.jump w).readV r = s.readV r := rfl
@[simp] theorem State.readV_writeDT (s : State) (b : Byte) (r : Reg) : (s.writeDT b).readV r = s.readV r := rfl
@[simp] theorem State.readV_writeST (s : State) (b : Byte) (r : Reg) : (s.writeST b).readV r = s.readV r := rfl
@[simp] theorem State.readV_raise (s : State) (f : Fatal) (r : Reg) : (s.raise f).readV r = s.readV r := rfl
@[simp] theorem State.readV_countDraw (s : State) (r : Reg) : s.countDraw.readV r = s.readV r := rfl
@[simp] theorem State.readV_writeByte (s : State) (a : Addr) (b : Byte) (r : Reg) :
    (s.writeByte a b).readV r = s.readV r := rfl
@[simp] theorem State.readV_skipIf (s : State) (c : Bool) (r : Reg) : (s.skipIf c).readV r = s.readV r := by
  cases c <;> rfl
@[simp] theorem State.readV_writeDataFrom (s : State) (k : Nat) (bs : List Byte) (r : Reg) :
    (s.writeDataFrom k bs).readV r = s.readV r := by simp [State.readV]

theorem State.readV_setDrawn (s : State) (d : Framebuffer × Bool) (r : Reg) :
    (s.setDrawn d).readV r = if r = 15 then flagByte d.2 else s.readV r :=
  State.readV_writeV { s with fb := d.1 } 15 r (flagByte d.2)

/-! ### Memory -/

/-- The byte read depends on the font and the cells alone. -/
theorem State.readByte_congr {s t : State} (hf : t.params = s.params) (hm : t.mem = s.mem) (a : Addr) :
    t.readByte a = s.readByte a := by simp only [State.readByte, hf, hm]

@[simp] theorem State.readByte_writeV (s : State) (r : Reg) (b : Byte) (a : Addr) :
    (s.writeV r b).readByte a = s.readByte a := rfl
@[simp] theorem State.readByte_writeWithFlag (s : State) (x : Reg) (b c : Byte) (a : Addr) :
    (s.writeWithFlag x b c).readByte a = s.readByte a := rfl
@[simp] theorem State.readByte_writeI (s : State) (w : Word) (a : Addr) : (s.writeI w).readByte a = s.readByte a := rfl
@[simp] theorem State.readByte_jump (s : State) (w : Word) (a : Addr) : (s.jump w).readByte a = s.readByte a := rfl
@[simp] theorem State.readByte_writeDT (s : State) (b : Byte) (a : Addr) : (s.writeDT b).readByte a = s.readByte a := rfl
@[simp] theorem State.readByte_writeST (s : State) (b : Byte) (a : Addr) : (s.writeST b).readByte a = s.readByte a := rfl
@[simp] theorem State.readByte_raise (s : State) (f : Fatal) (a : Addr) : (s.raise f).readByte a = s.readByte a := rfl
@[simp] theorem State.readByte_countDraw (s : State) (a : Addr) : s.countDraw.readByte a = s.readByte a := rfl
@[simp] theorem State.readByte_setDrawn (s : State) (d : Framebuffer × Bool) (a : Addr) :
    (s.setDrawn d).readByte a = s.readByte a := rfl
@[simp] theorem State.readByte_takeOp (s : State) (a : Addr) : s.takeOp.readByte a = s.readByte a := rfl
@[simp] theorem State.readByte_skipIf (s : State) (c : Bool) (a : Addr) : (s.skipIf c).readByte a = s.readByte a := by
  cases c <;> rfl
@[simp] theorem State.readByte_loadFirst (s : State) (n : Nat) (a : Addr) :
    (s.loadFirst n).readByte a = s.readByte a := State.readByte_congr (by simp) (by simp) a

/-- A read after a write of one byte, in every state: the byte written, every other address as before. -/
theorem State.readByte_writeByte (s : State) (a a' : Addr) (b : Byte) :
    (s.writeByte a b).readByte a' = if a' = a then b else s.readByte a' := by
  simp only [State.readByte, State.writeByte, Memory.read_write, BitVec.toNat_inj]

/-- `(I + k) mod 4096` (R76). -/
theorem State.dataAddr_toNat (s : State) (k : Nat) : (s.dataAddr k).toNat = (s.regI.toNat + k) % 4096 := by
  simp [State.dataAddr]

theorem State.dataAddr_congr {s t : State} (h : t.regI = s.regI) (k : Nat) : t.dataAddr k = s.dataAddr k := by
  simp only [State.dataAddr, h]

/-- Offsets less than 4096 apart name different bytes. -/
theorem State.dataAddr_inj (s : State) {j k : Nat} (hj : j < 4096) (hk : k < 4096) :
    s.dataAddr j = s.dataAddr k ↔ j = k := by
  rw [← BitVec.toNat_inj, State.dataAddr_toNat, State.dataAddr_toNat]
  omega

/-- The bytes at I + k, I + k + 1, ... after they were written in that order, and every other byte as before. -/
theorem State.readByte_writeDataFrom (bs : List Byte) : ∀ (s : State) (k : Nat) (a : Addr), k + bs.length ≤ 4096 →
    (∀ (j : Nat) (h : j < bs.length), a = s.dataAddr (k + j) → (s.writeDataFrom k bs).readByte a = bs[j]) ∧
    ((∀ j, j < bs.length → a ≠ s.dataAddr (k + j)) → (s.writeDataFrom k bs).readByte a = s.readByte a) := by
  induction bs with
  | nil => intro s k a _; exact ⟨fun j h => absurd h (Nat.not_lt_zero j), fun _ => rfl⟩
  | cons b bs ih =>
    intro s k a hk
    rw [List.length_cons] at hk
    have hI (j : Nat) : (s.writeData k b).dataAddr j = s.dataAddr j := rfl
    obtain ⟨h1, h2⟩ := ih (s.writeData k b) (k + 1) a (by omega)
    refine ⟨fun j hj ha => ?_, fun hne => ?_⟩
    · cases j with
      | zero =>
        rw [State.writeDataFrom, h2, State.writeData, State.readByte_writeByte, if_pos (by simpa using ha)]; rfl
        intro j hj' h
        rw [hI, ha, State.dataAddr_inj s (by omega) (by omega)] at h
        omega
      | succ j =>
        have hj' : j < bs.length := by simpa using hj
        rw [State.writeDataFrom, h1 j hj' (by rw [hI, ha]; congr 1; omega)]; rfl
    · rw [State.writeDataFrom, h2, State.writeData, State.readByte_writeByte, if_neg (by simpa using hne 0 (by simp))]
      intro j hj
      rw [hI]
      have := hne (j + 1) (by simpa using hj)
      rwa [show k + 1 + j = k + (j + 1) by omega]

/-- The first n registers hold the bytes at I, I + 1, ...; the others are as before (R215). -/
theorem State.readV_loadFirst (s : State) (r : Reg) : ∀ n, n ≤ 16 →
    (s.loadFirst n).readV r = if r.val < n then s.readData r.val else s.readV r := by
  intro n
  induction n with
  | zero => intro _; simp [State.loadFirst]
  | succ n ih =>
    intro hn
    rw [State.loadFirst, State.readV_writeV, ih (by omega)]
    have hv : (Fin.ofNat 16 n).val = n := Nat.mod_eq_of_lt (by omega)
    by_cases h : r = Fin.ofNat 16 n
    · have : r.val = n := by rw [h, hv]
      rw [if_pos h, if_pos (by omega), this]
    · have : r.val ≠ n := fun e => h (Fin.ext (by rw [hv, e]))
      rw [if_neg h]
      by_cases h' : r.val < n
      · rw [if_pos h', if_pos (by omega)]
      · rw [if_neg h', if_neg (by omega)]

/-- The registers up to V[x], one byte each. -/
theorem State.length_regsUpTo (s : State) (x : Reg) : (s.regsUpTo x).length = x.val + 1 := by simp [State.regsUpTo]

theorem State.getElem_regsUpTo (s : State) (x : Reg) (j : Nat) (h : j < (s.regsUpTo x).length) :
    (s.regsUpTo x)[j] = s.readV ⟨j, by rw [State.length_regsUpTo] at h; omega⟩ := by
  have hj : j < 16 := by rw [State.length_regsUpTo] at h; omega
  simp only [State.regsUpTo, List.getElem_map, List.getElem_range]
  congr 1
  exact Fin.ext (Nat.mod_eq_of_lt hj)

/-! ### The operations that can raise a fatal condition -/

/-- What `finish` can answer: the effect, or the fatal condition in the state before it. -/
theorem finish_cases (s : State) (r : Except Fatal State) :
    (∃ t, r = .ok t ∧ finish s r = .next t) ∨ (∃ f, r = .error f ∧ finish s r = .next (s.raise f)) := by
  cases r with
  | ok t => exact .inl ⟨t, rfl, rfl⟩
  | error f => exact .inr ⟨f, rfl, rfl⟩

/-- Everything a push can do (R40). -/
theorem State.push_cases (s : State) (a : Word) :
    (∃ h : s.sp.val < 16, s.push a = .ok { s with stack := s.stack.set s.sp.val a h, sp := ⟨s.sp.val + 1, by omega⟩ }) ∨
    (s.sp = 16 ∧ s.params.stackPolicy = .fault ∧ s.push a = .error (.stackOverflow a)) ∨
    (s.sp = 16 ∧ s.params.stackPolicy = .reference ∧ s.push a = .ok { s with stack := s.stack.set 0 a, sp := 1 }) := by
  by_cases h : s.sp.val < 16
  · exact .inl ⟨h, by simp [State.push, h]⟩
  · have h16 : s.sp = 16 := Fin.ext (by have := s.sp.isLt; show s.sp.val = 16; omega)
    cases hp : s.params.stackPolicy with
    | fault => exact .inr (.inl ⟨h16, rfl, by simp [State.push, h, hp]⟩)
    | reference => exact .inr (.inr ⟨h16, rfl, by simp [State.push, h, hp]⟩)

/-- Everything a pop can do (R41). -/
theorem State.pop_cases (s : State) :
    (∃ h : 0 < s.sp.val, s.pop = .ok (s.stack.get ⟨s.sp.val - 1, by omega⟩, { s with sp := ⟨s.sp.val - 1, by omega⟩ })) ∨
    (s.sp = 0 ∧ s.params.stackPolicy = .fault ∧ s.pop = .error .stackUnderflow) ∨
    (s.sp = 0 ∧ s.params.stackPolicy = .reference ∧ s.pop = .ok (s.stack.get 0, s)) := by
  by_cases h : 0 < s.sp.val
  · exact .inl ⟨h, by simp [State.pop, h]⟩
  · have h0 : s.sp = 0 := Fin.ext (by show s.sp.val = 0; omega)
    cases hp : s.params.stackPolicy with
    | fault => exact .inr (.inl ⟨h0, rfl, by simp [State.pop, h, hp]⟩)
    | reference =>
      refine .inr (.inr ⟨h0, rfl, ?_⟩)
      simp only [State.pop, dif_neg h, hp, ← h0]

/-- Everything the key index can do (R260). -/
theorem State.keyAt_cases (s : State) (v : Byte) :
    (∃ h : v.toNat < 16, s.keyAt v = .ok (s.key.get ⟨v.toNat, h⟩)) ∨
    (16 ≤ v.toNat ∧ s.keyAt v = .error (.keyIndexOutOfRange v)) := by
  by_cases h : v.toNat < 16
  · exact .inl ⟨h, by simp [State.keyAt, h]⟩
  · exact .inr ⟨by omega, by simp [State.keyAt, h]⟩

/-- Everything the fetch can do (R75). -/
theorem State.fetch_cases (s : State) :
    (4096 ≤ s.pc.toNat + 1 ∧ s.fetch = .error (.outOfBounds s.pc)) ∨
    (s.pc.toNat + 1 < 4096 ∧ s.fetch = .ok (s.wordAt s.pc.toNat, { s with pc := s.pc + 2 })) := by
  by_cases h : 4096 ≤ s.pc.toNat + 1
  · exact .inl ⟨h, by simp [State.fetch, Config.memSize, h]⟩
  · exact .inr ⟨by omega, by simp [State.fetch, Config.memSize, h]⟩

theorem State.pressedFrom_cases (s : State) : ∀ fuel k, k + fuel = 16 →
    (s.pressedFrom fuel k = none ∧ ∀ j : Fin 16, k ≤ j.val → s.key.get j = false) ∨
    (∃ j : Fin 16, s.pressedFrom fuel k = some j.val ∧ s.key.get j = true ∧
      ∀ j' : Fin 16, k ≤ j'.val → j' < j → s.key.get j' = false) := by
  intro fuel
  induction fuel with
  | zero => intro k hk; exact .inl ⟨rfl, fun j hj => by have := j.isLt; omega⟩
  | succ fuel ih =>
    intro k hk
    have hv : Fin.ofNat 16 k = ⟨k, by omega⟩ := Fin.ext (Nat.mod_eq_of_lt (by omega))
    cases hp : s.key.get ⟨k, by omega⟩ with
    | true =>
      refine .inr ⟨⟨k, by omega⟩, by rw [State.pressedFrom, hv, hp]; rfl, hp, fun j' h h' => ?_⟩
      exact absurd (Fin.lt_def.mp h') (by simpa using h)
    | false =>
      have hstep : s.pressedFrom (fuel + 1) k = s.pressedFrom fuel (k + 1) := by
        rw [State.pressedFrom, hv, hp]; rfl
      have low (j : Fin 16) (hj : k ≤ j.val) (h : ¬ k + 1 ≤ j.val) : s.key.get j = false := by
        rw [show j = ⟨k, by omega⟩ from Fin.ext (by show j.val = k; omega), hp]
      rw [hstep]
      rcases ih (k + 1) (by omega) with ⟨h, hall⟩ | ⟨j, h, hj, hall⟩
      · refine .inl ⟨h, fun j hj => ?_⟩
        by_cases h' : k + 1 ≤ j.val
        · exact hall j h'
        · exact low j hj h'
      · refine .inr ⟨j, h, hj, fun j' hj' hlt => ?_⟩
        by_cases h' : k + 1 ≤ j'.val
        · exact hall j' h' hlt
        · exact low j' hj' h'

/-- The lowest pressed key, none exactly when every key is released (R264). -/
theorem State.lowestKey_cases (s : State) :
    (s.lowestKey = none ∧ ∀ j, s.key.get j = false) ∨
    (∃ j : Fin 16, s.lowestKey = some j.val ∧ s.key.get j = true ∧ ∀ j', j' < j → s.key.get j' = false) := by
  rcases s.pressedFrom_cases 16 0 rfl with ⟨h, hall⟩ | ⟨j, h, hj, hall⟩
  · exact .inl ⟨h, fun j => hall j (Nat.zero_le _)⟩
  · exact .inr ⟨j, h, hj, fun j' => hall j' (Nat.zero_le _)⟩

end Sys2Proof.Machine
end

