-- ==== Sys2Proof/Laws/Draw.lean ====
section
/-!
SUPPORT. What drawing a sprite does to every cell of the framebuffer, and to the collision flag (R241).
-/

namespace Sys2Proof.Machine

@[simp] theorem fbCell_blank (px : Fin 64) (py : Fin 32) : fbCell blankFramebuffer px py = false := by
  simp [fbCell, blankFramebuffer, Vector.get_eq_getElem]

/-- A toggle flips its cell and no other. -/
theorem fbCell_fbToggle (fb : Framebuffer) (px qx : Fin 64) (py qy : Fin 32) :
    fbCell (fbToggle fb px py) qx qy = if qx = px ∧ qy = py then !fbCell fb px py else fbCell fb qx qy := by
  simp only [fbCell, fbToggle, Vector.get_eq_getElem, Vector.getElem_set, Fin.ext_iff]
  by_cases hx : px.val = qx.val
  · by_cases hy : py.val = qy.val
    · simp [hx, hy]
    · simp [hx, hy, Ne.symm hy]
  · simp [hx, Ne.symm hx]

/-- Two framebuffers with the same cells are the same. -/
theorem Framebuffer.ext {fb fb' : Framebuffer} (h : ∀ px py, fbCell fb px py = fbCell fb' px py) : fb = fb' := by
  refine Vector.ext fun i hi => Vector.ext fun j hj => ?_
  exact h ⟨i, hi⟩ ⟨j, hj⟩

/-- What a draw that lights the cells `L` makes of a framebuffer and a collision flag: each of those cells is toggled and
no other, and the flag is set when one of them was lit. -/
def Drawn (L : Fin 64 → Fin 32 → Prop) (d d' : Framebuffer × Bool) : Prop :=
  (∀ px py, fbCell d'.1 px py = true ↔ ¬ (fbCell d.1 px py = true ↔ L px py)) ∧
  (d'.2 = true ↔ d.2 = true ∨ ∃ px py, L px py ∧ fbCell d.1 px py = true)

theorem Drawn.refl (d : Framebuffer × Bool) {L : Fin 64 → Fin 32 → Prop} (h : ∀ px py, ¬ L px py) : Drawn L d d :=
  ⟨fun px py => by simp [h], by simp [h]⟩

/-- Draws of disjoint cells compose: "no cell is written twice in one draw" (R241). -/
theorem Drawn.trans {L M : Fin 64 → Fin 32 → Prop} {d e f : Framebuffer × Bool} (h : Drawn L d e) (h' : Drawn M e f)
    (disjoint : ∀ px py, L px py → M px py → False) : Drawn (fun px py => L px py ∨ M px py) d f := by
  have off (px py) (m : M px py) : (fbCell e.1 px py = true ↔ fbCell d.1 px py = true) := by
    have := h.1 px py
    have := disjoint px py
    tauto
  refine ⟨fun px py => ?_, ?_⟩
  · have h1 := h.1 px py
    have h2 := h'.1 px py
    have h3 := disjoint px py
    tauto
  · rw [h'.2, h.2]
    constructor
    · rintro ((hd | ⟨px, py, hl, hc⟩) | ⟨px, py, hm, hc⟩)
      · exact .inl hd
      · exact .inr ⟨px, py, .inl hl, hc⟩
      · exact .inr ⟨px, py, .inr hm, (off px py hm).mp hc⟩
    · rintro (hd | ⟨px, py, hl | hm, hc⟩)
      · exact .inl (.inl hd)
      · exact .inl (.inr ⟨px, py, hl, hc⟩)
      · exact .inr ⟨px, py, hm, (off px py hm).mpr hc⟩

theorem Drawn.congr {L M : Fin 64 → Fin 32 → Prop} {d e : Framebuffer × Bool} (h : Drawn L d e)
    (he : ∀ px py, L px py ↔ M px py) : Drawn M d e :=
  (funext fun px => funext fun py => propext (he px py) : L = M) ▸ h

/-- One cell: toggled where the sprite bit is 1. -/
theorem drawCell_drawn (bit : Bool) (px : Fin 64) (py : Fin 32) (d : Framebuffer × Bool) :
    Drawn (fun qx qy => bit = true ∧ qx = px ∧ qy = py) d (drawCell bit px py d) := by
  cases bit with
  | false => exact Drawn.refl d (by simp)
  | true =>
    refine ⟨fun qx qy => ?_, ?_⟩
    · simp only [drawCell, if_true, fbCell_fbToggle, true_and]
      by_cases h : qx = px ∧ qy = py
      · obtain ⟨rfl, rfl⟩ := h
        cases fbCell d.1 qx qy <;> simp
      · rw [if_neg h]
        cases fbCell d.1 qx qy <;> simp [h]
    · simp only [drawCell, if_true, Bool.or_eq_true, true_and]
      constructor
      · rintro (h | h)
        · exact .inl h
        · exact .inr ⟨px, py, ⟨rfl, rfl⟩, h⟩
      · rintro (h | ⟨_, _, ⟨rfl, rfl⟩, h⟩)
        · exact .inl h
        · exact .inr h

theorem spriteColumn_val (ox : Byte) (c : Nat) : (spriteColumn ox c).val = (ox.toNat + c) % 64 := rfl

theorem spriteRow_val (oy : Byte) (r : Nat) : (spriteRow oy r).val = (oy.toNat + r) % 32 := rfl

/-- The first n columns of a sprite row. -/
theorem drawColumns_drawn (row ox : Byte) (py : Fin 32) (d : Framebuffer × Bool) : ∀ n, n ≤ 8 →
    Drawn (fun qx qy => ∃ c, c < n ∧ qx = spriteColumn ox c ∧ qy = py ∧ spriteBit row c = true) d
      (drawColumns row ox py n d) := by
  intro n
  induction n with
  | zero => intro _; exact Drawn.refl d (by simp)
  | succ n ih =>
    intro hn
    refine ((ih (by omega)).trans (drawCell_drawn (spriteBit row n) (spriteColumn ox n) py _) ?_).congr ?_
    · rintro qx qy ⟨c, hc, rfl, -⟩ ⟨-, h, -⟩
      have := congrArg Fin.val h
      rw [spriteColumn_val, spriteColumn_val] at this
      omega
    · intro qx qy
      constructor
      · rintro (⟨c, hc, h⟩ | ⟨hb, hx, hy⟩)
        · exact ⟨c, by omega, h⟩
        · exact ⟨n, by omega, hx, hy, hb⟩
      · rintro ⟨c, hc, hx, hy, hb⟩
        by_cases h : c < n
        · exact .inl ⟨c, h, hx, hy, hb⟩
        · obtain rfl : c = n := by omega
          exact .inr ⟨hb, hx, hy⟩

theorem spriteLights_succ (s : State) (ox oy : Byte) (n : Nat) (px : Fin 64) (py : Fin 32) :
    spriteLights s ox oy (n + 1) px py ↔ spriteLights s ox oy n px py ∨
      ∃ c, c < 8 ∧ px = spriteColumn ox c ∧ py = spriteRow oy n ∧ spriteBit (s.readData n) c = true := by
  constructor
  · rintro ⟨r, hr, c, hc, hx, hy, hb⟩
    by_cases h : r < n
    · exact .inl ⟨r, h, c, hc, hx, hy, hb⟩
    · obtain rfl : r = n := by omega
      exact .inr ⟨c, hc, Fin.ext hx, Fin.ext hy, hb⟩
  · rintro (⟨r, hr, h⟩ | ⟨c, hc, rfl, rfl, hb⟩)
    · exact ⟨r, by omega, h⟩
    · exact ⟨n, by omega, c, hc, rfl, rfl, hb⟩

/-- The whole sprite: every cell it lights is toggled, no other, and the flag says whether one of them was lit. -/
theorem State.drawRows_drawn (s : State) (ox oy : Byte) : ∀ n, n ≤ 16 →
    Drawn (spriteLights s ox oy n) (s.fb, false) (s.drawRows ox oy n) := by
  intro n
  induction n with
  | zero => intro _; exact Drawn.refl _ (by rintro px py ⟨r, hr, -⟩; omega)
  | succ n ih =>
    intro hn
    refine ((ih (by omega)).trans (drawColumns_drawn (s.readData n) ox (spriteRow oy n) _ 8 (Nat.le_refl 8)) ?_).congr
      (fun px py => (spriteLights_succ s ox oy n px py).symm)
    rintro px py ⟨r, hr, c, hc, hx, hy, hb⟩ ⟨c', hc', -, h, -⟩
    rw [h, spriteRow_val] at hy
    omega

end Sys2Proof.Machine
end

