-- ==== Sys2Proof/Laws/Encoding.lean ====
section
/-!
SUPPORT. The number of a word in each format (R102), the number of each field of a word (R101), and the number that each
mask of the opcode map leaves of a word (R105): with these a fact about encodings is arithmetic.
-/

namespace Sys2Proof

theorem toNat_append_eq {m n : Nat} (x : BitVec m) (y : BitVec n) : (x ++ y).toNat = x.toNat * 2 ^ n + y.toNat := by
  rw [BitVec.toNat_append, ← Nat.shiftLeft_add_eq_or_of_lt y.isLt, Nat.shiftLeft_eq]

theorem formatNNN_toNat (op : BitVec 4) (nnn : Addr) : (formatNNN op nnn).toNat = op.toNat * 4096 + nnn.toNat :=
  toNat_append_eq op nnn

theorem formatXKK_toNat (op : BitVec 4) (x : Reg) (kk : Byte) :
    (formatXKK op x kk).toNat = op.toNat * 4096 + x.val * 256 + kk.toNat := by
  have h1 : (formatXKK op x kk).toNat = (op ++ BitVec.ofFin (w := 4) x).toNat * 2 ^ 8 + kk.toNat := toNat_append_eq _ kk
  have h2 : (op ++ BitVec.ofFin (w := 4) x).toNat = op.toNat * 2 ^ 4 + x.val := toNat_append_eq op _
  rw [h1, h2]
  ring

theorem formatXYN_toNat (op : BitVec 4) (x y : Reg) (n : BitVec 4) :
    (formatXYN op x y n).toNat = op.toNat * 4096 + x.val * 256 + y.val * 16 + n.toNat := by
  have h1 : (formatXYN op x y n).toNat =
      ((op ++ BitVec.ofFin (w := 4) x) ++ BitVec.ofFin (w := 4) y).toNat * 2 ^ 4 + n.toNat := toNat_append_eq _ n
  have h2 : ((op ++ BitVec.ofFin (w := 4) x) ++ BitVec.ofFin (w := 4) y).toNat =
      (op ++ BitVec.ofFin (w := 4) x).toNat * 2 ^ 4 + y.val := toNat_append_eq _ _
  have h3 : (op ++ BitVec.ofFin (w := 4) x).toNat = op.toNat * 2 ^ 4 + x.val := toNat_append_eq op _
  rw [h1, h2, h3]
  ring

theorem fieldMsb_toNat (w : Word) : (fieldMsb w).toNat = w.toNat / 4096 := by
  have := w.isLt
  simp only [fieldMsb, BitVec.extractLsb'_toNat, Nat.shiftRight_eq_div_pow]
  omega

theorem fieldX_val (w : Word) : (fieldX w).val = w.toNat / 256 % 16 := by
  have h : (fieldX w).val = (w.extractLsb' 8 4).toNat := rfl
  rw [h, BitVec.extractLsb'_toNat, Nat.shiftRight_eq_div_pow]

theorem fieldY_val (w : Word) : (fieldY w).val = w.toNat / 16 % 16 := by
  have h : (fieldY w).val = (w.extractLsb' 4 4).toNat := rfl
  rw [h, BitVec.extractLsb'_toNat, Nat.shiftRight_eq_div_pow]

theorem fieldN_toNat (w : Word) : (fieldN w).toNat = w.toNat % 16 := by
  simp [fieldN, BitVec.extractLsb'_toNat]

theorem fieldKK_toNat (w : Word) : (fieldKK w).toNat = w.toNat % 256 := by
  simp [fieldKK, BitVec.extractLsb'_toNat]

theorem fieldNNN_toNat (w : Word) : (fieldNNN w).toNat = w.toNat % 4096 := by
  simp [fieldNNN, BitVec.extractLsb'_toNat]

theorem joinBytes_toNat (hi lo : Byte) : (joinBytes hi lo).toNat = hi.toNat * 256 + lo.toNat :=
  toNat_append_eq hi lo

theorem joinBytes_wordBytes (w : Word) : wordBytes w = [w.extractLsb' 8 8, w.extractLsb' 0 8] ∧
    joinBytes (w.extractLsb' 8 8) (w.extractLsb' 0 8) = w := by
  refine ⟨rfl, BitVec.eq_of_toNat_eq ?_⟩
  have := w.isLt
  rw [joinBytes_toNat, BitVec.extractLsb'_toNat, BitVec.extractLsb'_toNat, Nat.shiftRight_eq_div_pow,
    Nat.shiftRight_eq_div_pow]
  omega

theorem maskF000_toNat (w : Word) : (w &&& 0xF000).toNat = w.toNat / 4096 * 4096 := by
  have h : w &&& (0xF000 : Word) = (w >>> 12) <<< 12 := by
    apply BitVec.eq_of_getLsbD_eq
    intro i hi
    interval_cases i <;> simp
  have := w.isLt
  rw [h, BitVec.toNat_shiftLeft, BitVec.toNat_ushiftRight, Nat.shiftRight_eq_div_pow, Nat.shiftLeft_eq]
  omega

/-- The low n bits and the major opcode, for the masks 0xF00F and 0xF0FF. -/
theorem mask_low_toNat (w low : Word) (n : Nat) (hn : n ≤ 12) (hlow : low.toNat = 2 ^ n - 1) :
    (w &&& (0xF000 ||| low)).toNat = w.toNat / 4096 * 4096 + w.toNat % 2 ^ n := by
  have hp : 2 ^ n ≤ 4096 := Nat.pow_le_pow_right (by decide) hn
  have hlt : w.toNat % 2 ^ n < 2 ^ 12 := lt_of_lt_of_le (Nat.mod_lt _ (by positivity)) hp
  have hd : w &&& ((0xF000 : Word) ||| low) = (w &&& (0xF000 : Word)) ||| (w &&& low) := by
    apply BitVec.eq_of_getLsbD_eq
    intro i hi
    simp only [BitVec.getLsbD_and, BitVec.getLsbD_or, Bool.and_or_distrib_left]
  rw [hd, BitVec.toNat_or, maskF000_toNat, BitVec.toNat_and, hlow, Nat.and_two_pow_sub_one_eq_mod,
    show w.toNat / 4096 * 4096 = (w.toNat / 4096) <<< 12 from (Nat.shiftLeft_eq _ 12).symm,
    Nat.shiftLeft_add_eq_or_of_lt hlt]

theorem maskF00F_toNat (w : Word) : (w &&& 0xF00F).toNat = w.toNat / 4096 * 4096 + w.toNat % 16 :=
  mask_low_toNat w 0x000F 4 (by decide) rfl

theorem maskF0FF_toNat (w : Word) : (w &&& 0xF0FF).toNat = w.toNat / 4096 * 4096 + w.toNat % 256 :=
  mask_low_toNat w 0x00FF 8 (by decide) rfl

theorem maskFFFF (w : Word) : w &&& 0xFFFF = w := by
  simpa using BitVec.and_allOnes (x := w)

/-- The encodings of each format keep only the major opcode, or it and the function code, under the mask of their rows. -/
theorem formatNNN_mask (op : BitVec 4) (nnn : Addr) : (formatNNN op nnn &&& 0xF000).toNat = op.toNat * 4096 := by
  have := nnn.isLt
  rw [maskF000_toNat, formatNNN_toNat]
  omega

theorem formatXKK_mask (op : BitVec 4) (x : Reg) (kk : Byte) : (formatXKK op x kk &&& 0xF000).toNat = op.toNat * 4096 := by
  have := kk.isLt
  have := x.isLt
  rw [maskF000_toNat, formatXKK_toNat]
  omega

theorem formatXF_mask (op : BitVec 4) (x : Reg) (kk : Byte) :
    (formatXKK op x kk &&& 0xF0FF).toNat = op.toNat * 4096 + kk.toNat := by
  have := kk.isLt
  have := x.isLt
  rw [maskF0FF_toNat, formatXKK_toNat]
  omega

theorem formatXYF_mask (op : BitVec 4) (x y : Reg) (n : BitVec 4) :
    (formatXYN op x y n &&& 0xF00F).toNat = op.toNat * 4096 + n.toNat := by
  have := n.isLt
  have := x.isLt
  have := y.isLt
  rw [maskF00F_toNat, formatXYN_toNat]
  omega

theorem formatXYN_mask (op : BitVec 4) (x y : Reg) (n : BitVec 4) :
    (formatXYN op x y n &&& 0xF000).toNat = op.toNat * 4096 := by
  have := n.isLt
  have := x.isLt
  have := y.isLt
  rw [maskF000_toNat, formatXYN_toNat]
  omega

/-! ### The fields of an encoding -/

theorem formatNNN_fields (op : BitVec 4) (nnn : Addr) :
    fieldMsb (formatNNN op nnn) = op ∧ fieldNNN (formatNNN op nnn) = nnn := by
  have := nnn.isLt
  have := op.isLt
  refine ⟨BitVec.eq_of_toNat_eq ?_, BitVec.eq_of_toNat_eq ?_⟩
  · rw [fieldMsb_toNat, formatNNN_toNat]; omega
  · rw [fieldNNN_toNat, formatNNN_toNat]; omega

theorem formatXKK_fields (op : BitVec 4) (x : Reg) (kk : Byte) :
    fieldMsb (formatXKK op x kk) = op ∧ fieldX (formatXKK op x kk) = x ∧ fieldKK (formatXKK op x kk) = kk := by
  have := kk.isLt
  have := x.isLt
  have := op.isLt
  refine ⟨BitVec.eq_of_toNat_eq ?_, Fin.ext ?_, BitVec.eq_of_toNat_eq ?_⟩
  · rw [fieldMsb_toNat, formatXKK_toNat]; omega
  · rw [fieldX_val, formatXKK_toNat]; omega
  · rw [fieldKK_toNat, formatXKK_toNat]; omega

theorem formatXYN_fields (op : BitVec 4) (x y : Reg) (n : BitVec 4) :
    fieldMsb (formatXYN op x y n) = op ∧ fieldX (formatXYN op x y n) = x ∧ fieldY (formatXYN op x y n) = y ∧
      fieldN (formatXYN op x y n) = n := by
  have := n.isLt
  have := x.isLt
  have := y.isLt
  have := op.isLt
  refine ⟨BitVec.eq_of_toNat_eq ?_, Fin.ext ?_, Fin.ext ?_, BitVec.eq_of_toNat_eq ?_⟩
  · rw [fieldMsb_toNat, formatXYN_toNat]; omega
  · rw [fieldX_val, formatXYN_toNat]; omega
  · rw [fieldY_val, formatXYN_toNat]; omega
  · rw [fieldN_toNat, formatXYN_toNat]; omega

end Sys2Proof
end

