-- ==== Sys2Proof/Laws/HostOps.lean ====
section
/-!
SUPPORT. Everything a cycle, a host operation and a step can do, said once: later proofs take these apart and do not unfold
the machine.
-/

namespace Sys2Proof.Machine

/-- Everything a cycle can do (R108, R305): nothing when halted, OutOfBounds in the fetch, UnimplementedOpcode in decode, or
the instruction. -/
theorem State.cycle_cases (s : State) :
    (∃ f, s.status = .halted f ∧ s.cycle = .next s) ∨
    (s.status = .running ∧ 4096 ≤ s.pc.toNat + 1 ∧ s.cycle = .next (s.raise (.outOfBounds s.pc))) ∨
    (s.status = .running ∧ s.pc.toNat + 1 < 4096 ∧ (∃ e, decode (s.wordAt s.pc.toNat) = .error e) ∧
      s.cycle = .next (({ s with pc := s.pc + 2 } : State).raise (.unimplementedOpcode (s.wordAt s.pc.toNat)))) ∨
    (s.status = .running ∧ s.pc.toNat + 1 < 4096 ∧ ∃ i, decode (s.wordAt s.pc.toNat) = .ok i ∧
      s.cycle = exec i { s with pc := s.pc + 2 }) := by
  cases hs : s.status with
  | halted f => exact .inl ⟨f, rfl, by simp only [State.cycle, hs]⟩
  | running =>
    rcases s.fetch_cases with ⟨hpc, hf⟩ | ⟨hpc, hf⟩
    · exact .inr (.inl ⟨rfl, hpc, by simp only [State.cycle, hs, hf]⟩)
    · cases hd : decode (s.wordAt s.pc.toNat) with
      | error e => exact .inr (.inr (.inl ⟨rfl, hpc, ⟨e, rfl⟩, by simp only [State.cycle, hs, hf, hd]⟩))
      | ok i => exact .inr (.inr (.inr ⟨rfl, hpc, i, rfl, by simp only [State.cycle, hs, hf, hd]⟩))

/-- Everything `load_program` can do (R342, R343). -/
theorem State.loadProgram_cases (s : State) (bs : List Byte) :
    ((s.status ≠ .running ∨ s.loaded = true) ∧ s.loadProgram bs = .refused .loadRefused) ∨
    (s.status = .running ∧ s.loaded = false ∧ 3584 < bs.length ∧
      s.loadProgram bs = .next (s.raise (.capacityError bs.length))) ∨
    (s.status = .running ∧ s.loaded = false ∧ bs.length ≤ 3584 ∧ s.loadProgram bs =
      .next { s with mem := Memory.copy s.params.font s.mem 0x200 bs, loaded := true }) := by
  cases hs : s.status with
  | halted f => exact .inl ⟨.inl (by simp), by simp only [State.loadProgram, hs]⟩
  | running =>
    cases hl : s.loaded with
    | true => exact .inl ⟨.inr rfl, by simp only [State.loadProgram, hs, hl]⟩
    | false =>
      by_cases h : 3584 < bs.length
      · exact .inr (.inl ⟨rfl, rfl, h, by simp only [State.loadProgram, hs, hl, Config.maxRom, if_pos h]⟩)
      · refine .inr (.inr ⟨rfl, rfl, by omega, ?_⟩)
        simp only [State.loadProgram, hs, hl, Config.maxRom, if_neg h, Config.progBase]

/-- Everything `tick` can do (R308, R304). -/
theorem State.tick_cases (s : State) :
    (∃ f, s.status = .halted f ∧ s.tick = s) ∨
    (s.status = .running ∧ s.tick = { s with
      dt := countDown s.dt
      st := countDown s.st
      soundEvents := if s.st = 1 then s.soundEvents + 1 else s.soundEvents }) := by
  cases hs : s.status with
  | halted f => exact .inl ⟨f, rfl, by simp only [State.tick, hs]⟩
  | running => exact .inr ⟨rfl, by simp only [State.tick, hs]⟩

/-- A timer counts down by one and stops at 0 (R43). -/
theorem countDown_toNat (b : Byte) : (countDown b).toNat = b.toNat - 1 := by
  unfold countDown
  split
  · rename_i h; subst h; rfl
  · rename_i h
    have h0 : b.toNat ≠ 0 := fun e => h (BitVec.eq_of_toNat_eq e)
    have := b.isLt
    have h1 : (1 : Byte).toNat = 1 := rfl
    rw [BitVec.toNat_sub, h1]
    omega

/-- Everything `set_key` can do (R311). -/
theorem State.setKey_cases (s : State) (k : Nat) (pressed : Bool) :
    (∃ h : k < 16, s.setKey k pressed = .next { s with key := s.key.set k pressed h }) ∨
    (16 ≤ k ∧ s.setKey k pressed = .refused (.invalidKey k)) := by
  by_cases h : k < 16
  · exact .inl ⟨h, by simp only [State.setKey, dif_pos h]⟩
  · exact .inr ⟨by omega, by simp only [State.setKey, dif_neg h]⟩

/-- A step with an empty schedule is a cycle. -/
theorem step_of_empty {s : State} (h : s.schedule = []) : step s = s.cycle := by
  have : s.takeOp = s := by cases s; simp_all [State.takeOp]
  simp only [step, State.nextOp, h, List.headD_nil, operate, this]

/-- A step takes the first operation of the schedule and runs it. -/
theorem step_of_cons {s : State} {op : HostOp} {ops : List HostOp} (h : s.schedule = op :: ops) :
    step s = operate op { s with schedule := ops } := by
  simp only [step, State.nextOp, State.takeOp, h, List.headD_cons, List.tail_cons]

/-- Everything a next state of a step can come from: one host operation on the state with its schedule shortened. -/
theorem step_cases {s t : State} (h : step s = .next t) :
    t = s.takeOp.create ∨
    (∃ bs, s.takeOp.loadProgram bs = .next t) ∨
    s.takeOp.cycle = .next t ∨
    t = s.takeOp.tick ∨
    (∃ k pressed, s.takeOp.setKey k pressed = .next t) ∨
    t = s.takeOp := by
  unfold step operate at h
  split at h
  · exact .inl (by simpa using h.symm)
  · exact .inr (.inl ⟨_, h⟩)
  · exact .inr (.inr (.inl h))
  · exact .inr (.inr (.inr (.inl (by simpa using h.symm))))
  · exact .inr (.inr (.inr (.inr (.inl ⟨_, _, h⟩))))
  · exact .inr (.inr (.inr (.inr (.inr (by simpa using h.symm)))))

/-- The step after an instruction's word has been placed fetches exactly that word (log 12). -/
theorem step_placeWord (s : State) (w : Word) :
    step (s.placeWord w) = (match decode w with
      | .ok i => exec i { s.placeWord w with pc := s.placePc + 2, schedule := s.schedule }
      | .error _ => .next { s.placeWord w with
          pc := s.placePc + 2, schedule := s.schedule, status := .halted (.unimplementedOpcode w) }) := by
  have hstep : step (s.placeWord w) = ({ s.placeWord w with schedule := s.schedule } : State).cycle := by
    cases hs : s.schedule with
    | nil => rw [step_of_empty (by simp [State.placeWord, hs, cycleFirst])]; simp [State.placeWord, hs, cycleFirst]
    | cons op ops => rw [step_of_cons (op := .cycle) (ops := op :: ops) (by simp [State.placeWord, hs, cycleFirst])]; rfl
  have hpc : s.placePc.toNat + 1 < 4096 := by
    unfold State.placePc
    split
    · decide
    · rename_i h; exact not_le.mp h
  have hrd (a : Nat) (ha : a < 4096) : ({ s.placeWord w with schedule := s.schedule } : State).readByte (BitVec.ofNat 12 a) =
      Memory.read s.params.font (Memory.copy s.params.font s.mem s.placePc.toNat (wordBytes w)) a := by
    simp only [State.readByte, State.placeWord, BitVec.toNat_ofNat, Nat.mod_eq_of_lt (show a < 2 ^ 12 from ha)]
  have hw : ({ s.placeWord w with schedule := s.schedule } : State).wordAt s.placePc.toNat = w := by
    rw [State.wordAt, hrd _ (by omega), hrd _ hpc, Memory.read_copy, Memory.read_copy,
      dif_pos ⟨Nat.le_refl _, by simp [wordBytes]⟩, dif_pos ⟨by omega, by simp [wordBytes]⟩]
    have e0 : s.placePc.toNat - s.placePc.toNat = 0 := by omega
    have e1 : s.placePc.toNat + 1 - s.placePc.toNat = 1 := by omega
    simp only [e0, e1, wordBytes, List.getElem_cons_zero, List.getElem_cons_succ]
    apply BitVec.eq_of_toNat_eq
    have := w.isLt
    rw [joinBytes, BitVec.toNat_append, ← Nat.shiftLeft_add_eq_or_of_lt (BitVec.isLt _), BitVec.extractLsb'_toNat,
      BitVec.extractLsb'_toNat, Nat.shiftRight_eq_div_pow, Nat.shiftRight_eq_div_pow, Nat.shiftLeft_eq]
    omega
  rw [hstep]
  rcases ({ s.placeWord w with schedule := s.schedule } : State).cycle_cases with
    ⟨f, h, -⟩ | ⟨-, h, -⟩ | ⟨-, -, ⟨e, hd⟩, h⟩ | ⟨-, -, i, hd, h⟩
  · simp [State.placeWord] at h
  · have h' : 4096 ≤ s.placePc.toNat + 1 := h
    omega
  · have hd' : decode (({ s.placeWord w with schedule := s.schedule } : State).wordAt s.placePc.toNat) = .error e := hd
    have h' := h
    rw [show ({ s.placeWord w with schedule := s.schedule } : State).wordAt
      ({ s.placeWord w with schedule := s.schedule } : State).pc.toNat = w from hw] at h'
    rw [hw] at hd'
    rw [h', hd']
    rfl
  · have hd' : decode (({ s.placeWord w with schedule := s.schedule } : State).wordAt s.placePc.toNat) = .ok i := hd
    rw [hw] at hd'
    rw [h, hd']
    rfl

end Sys2Proof.Machine
end

