-- ==== Sys2Proof/Laws/Frames.lean ====
section
/-!
SUPPORT. What each shared operation leaves unchanged, in the terms of Safety.lean; the numbers of the operand forms.
-/

namespace Sys2Proof.Machine

theorem zextAddr_toNat (nnn : Addr) : (zextAddr nnn).toNat = nnn.toNat := by
  have := nnn.isLt
  simp only [zextAddr, BitVec.toNat_setWidth]
  omega

theorem zextByte_toNat (b : Byte) : (zextByte b).toNat = b.toNat := by
  have := b.isLt
  simp only [zextByte, BitVec.toNat_setWidth]
  omega

theorem glyphAddr_toNat (b : Byte) : (glyphAddr b).toNat = b.toNat * 5 := by
  have := b.isLt
  simp only [glyphAddr, Config.glyphBytes, BitVec.toNat_ofNat]
  omega

theorem flagByte_toNat (c : Bool) : (flagByte c).toNat = if c = true then 1 else 0 := by cases c <;> rfl

theorem flagByte_eq_one (c : Bool) : flagByte c = 1 ↔ c = true := by cases c <;> decide

theorem flagByte_eq_zero (c : Bool) : flagByte c = 0 ↔ c = false := by cases c <;> decide

theorem ChangesOnly.refl (parts : List Part) (s : State) : ChangesOnly parts s s := by
  intro p _
  cases p <;> first | rfl | exact fun _ => rfl

/-- A frame may be widened. -/
theorem ChangesOnly.mono {parts more : List Part} {s t : State} (h : ChangesOnly parts s t)
    (sub : ∀ p ∈ parts, p ∈ more) : ChangesOnly more s t := fun p hp => h p fun hm => hp (sub p hm)

theorem State.writeV_changes (s : State) (x : Reg) (b : Byte) : ChangesOnly [.v] s (s.writeV x b) := by
  intro p hp; cases p <;> simp_all [Part.same]

theorem State.writeWithFlag_changes (s : State) (x : Reg) (a b : Byte) : ChangesOnly [.v] s (s.writeWithFlag x a b) := by
  intro p hp; cases p <;> simp_all [Part.same]

theorem State.randomWrite_changes (s : State) (x : Reg) (b : Byte) :
    ChangesOnly [.v, .draws] s (s.countDraw.writeV x b) := by
  intro p hp; cases p <;> simp_all [Part.same]

theorem State.writeI_changes (s : State) (w : Word) : ChangesOnly [.regI] s (s.writeI w) := by
  intro p hp; cases p <;> simp_all [Part.same]

theorem State.jump_changes (s : State) (w : Word) : ChangesOnly [.pc] s (s.jump w) := by
  intro p hp; cases p <;> simp_all [Part.same]

theorem State.skipIf_changes (s : State) (c : Bool) : ChangesOnly [.pc] s (s.skipIf c) := by
  intro p hp; cases p <;> simp_all [Part.same]

theorem State.writeDT_changes (s : State) (b : Byte) : ChangesOnly [.dt] s (s.writeDT b) := by
  intro p hp; cases p <;> simp_all [Part.same]

theorem State.writeST_changes (s : State) (b : Byte) : ChangesOnly [.st] s (s.writeST b) := by
  intro p hp; cases p <;> simp_all [Part.same]

theorem State.raise_changes (s : State) (f : Fatal) : ChangesOnly [.status] s (s.raise f) := by
  intro p hp; cases p <;> simp_all [Part.same]

theorem State.writeDataFrom_changes (s : State) (k : Nat) (bs : List Byte) :
    ChangesOnly [.mem] s (s.writeDataFrom k bs) := by
  intro p hp; cases p <;> simp_all [Part.same]

theorem State.loadFirst_changes (s : State) (n : Nat) : ChangesOnly [.v] s (s.loadFirst n) := by
  intro p hp; cases p <;> simp_all [Part.same]

theorem State.setDrawn_changes (s : State) (d : Framebuffer × Bool) : ChangesOnly [.v, .fb] s (s.setDrawn d) := by
  intro p hp; cases p <;> simp_all [Part.same]

/-- A push changes the stack and its depth (R40). -/
theorem State.push_changes {s t : State} {a : Word} (h : s.push a = .ok t) : ChangesOnly [.stack, .sp] s t := by
  rcases s.push_cases a with ⟨_, e⟩ | ⟨-, -, e⟩ | ⟨-, -, e⟩ <;> rw [e] at h <;> cases h <;> intro p hp <;>
    cases p <;> simp_all [Part.same, State.readV, State.readByte]

/-- A pop changes the depth alone: the entry it reads is not cleared (R41, R42). -/
theorem State.pop_changes {s t : State} {a : Word} (h : s.pop = .ok (a, t)) : ChangesOnly [.sp] s t := by
  rcases s.pop_cases with ⟨_, e⟩ | ⟨-, -, e⟩ | ⟨-, -, e⟩ <;> rw [e] at h <;> cases h <;> intro p hp <;>
    cases p <;> simp_all [Part.same, State.readV, State.readByte]

/-- A store of bytes keeps memory canonical. -/
theorem State.writeByte_canonical {s : State} (h : s.memoryCanonical) (a : Addr) (b : Byte) :
    (s.writeByte a b).memoryCanonical := Memory.wf_write h a.isLt b

theorem State.writeDataFrom_canonical (bs : List Byte) : ∀ {s : State}, s.memoryCanonical → ∀ k,
    (s.writeDataFrom k bs).memoryCanonical := by
  induction bs with
  | nil => intro s h _; exact h
  | cons b bs ih => intro s h k; exact ih (State.writeByte_canonical h _ b) (k + 1)

end Sys2Proof.Machine
end

