-- ==== Sys2Proof/Laws/PerInstr.lean ====
section
/-!
SUPPORT. Statements made for every instruction, one lemma per constructor: the word the encoder gives selects the
instruction's own row of the opcode map (R105).
-/

namespace Sys2Proof.Laws

/-- The instruction's word has its row's match value under its row's mask (R105). -/
def EncodingSelectsRow.Statement (i : Instr) : Prop := i.row.selects (encode i) = true

theorem selects_of_toNat {r : OpcodeRow} {w : Word} (h : (w &&& r.mask).toNat = r.value.toNat) : r.selects w = true :=
  beq_iff_eq.mpr (BitVec.eq_of_toNat_eq h)

theorem EncodingSelectsRow.nop : EncodingSelectsRow.Statement .nop := rfl

theorem EncodingSelectsRow.cls : EncodingSelectsRow.Statement .cls := rfl

theorem EncodingSelectsRow.ret : EncodingSelectsRow.Statement .ret := rfl

theorem EncodingSelectsRow.jp (nnn : Addr) : EncodingSelectsRow.Statement (.jp nnn) := selects_of_toNat (formatNNN_mask _ _)

theorem EncodingSelectsRow.call (nnn : Addr) : EncodingSelectsRow.Statement (.call nnn) := selects_of_toNat (formatNNN_mask _ _)

theorem EncodingSelectsRow.seImm (x : Reg) (kk : Byte) : EncodingSelectsRow.Statement (.seImm x kk) := selects_of_toNat (formatXKK_mask _ _ _)

theorem EncodingSelectsRow.sneImm (x : Reg) (kk : Byte) : EncodingSelectsRow.Statement (.sneImm x kk) := selects_of_toNat (formatXKK_mask _ _ _)

theorem EncodingSelectsRow.seReg (x y : Reg) : EncodingSelectsRow.Statement (.seReg x y) := selects_of_toNat (formatXYF_mask _ _ _ _)

theorem EncodingSelectsRow.ldImm (x : Reg) (kk : Byte) : EncodingSelectsRow.Statement (.ldImm x kk) := selects_of_toNat (formatXKK_mask _ _ _)

theorem EncodingSelectsRow.addImm (x : Reg) (kk : Byte) : EncodingSelectsRow.Statement (.addImm x kk) := selects_of_toNat (formatXKK_mask _ _ _)

theorem EncodingSelectsRow.ldReg (x y : Reg) : EncodingSelectsRow.Statement (.ldReg x y) := selects_of_toNat (formatXYF_mask _ _ _ _)

theorem EncodingSelectsRow.orReg (x y : Reg) : EncodingSelectsRow.Statement (.orReg x y) := selects_of_toNat (formatXYF_mask _ _ _ _)

theorem EncodingSelectsRow.andReg (x y : Reg) : EncodingSelectsRow.Statement (.andReg x y) := selects_of_toNat (formatXYF_mask _ _ _ _)

theorem EncodingSelectsRow.xorReg (x y : Reg) : EncodingSelectsRow.Statement (.xorReg x y) := selects_of_toNat (formatXYF_mask _ _ _ _)

theorem EncodingSelectsRow.addReg (x y : Reg) : EncodingSelectsRow.Statement (.addReg x y) := selects_of_toNat (formatXYF_mask _ _ _ _)

theorem EncodingSelectsRow.subReg (x y : Reg) : EncodingSelectsRow.Statement (.subReg x y) := selects_of_toNat (formatXYF_mask _ _ _ _)

theorem EncodingSelectsRow.shr (x y : Reg) : EncodingSelectsRow.Statement (.shr x y) := selects_of_toNat (formatXYF_mask _ _ _ _)

theorem EncodingSelectsRow.subn (x y : Reg) : EncodingSelectsRow.Statement (.subn x y) := selects_of_toNat (formatXYF_mask _ _ _ _)

theorem EncodingSelectsRow.shl (x y : Reg) : EncodingSelectsRow.Statement (.shl x y) := selects_of_toNat (formatXYF_mask _ _ _ _)

theorem EncodingSelectsRow.sneReg (x y : Reg) : EncodingSelectsRow.Statement (.sneReg x y) := selects_of_toNat (formatXYF_mask _ _ _ _)

theorem EncodingSelectsRow.ldI (nnn : Addr) : EncodingSelectsRow.Statement (.ldI nnn) := selects_of_toNat (formatNNN_mask _ _)

theorem EncodingSelectsRow.jpV0 (nnn : Addr) : EncodingSelectsRow.Statement (.jpV0 nnn) := selects_of_toNat (formatNNN_mask _ _)

theorem EncodingSelectsRow.rnd (x : Reg) (kk : Byte) : EncodingSelectsRow.Statement (.rnd x kk) := selects_of_toNat (formatXKK_mask _ _ _)

theorem EncodingSelectsRow.drw (x y : Reg) (n : Fin 16) : EncodingSelectsRow.Statement (.drw x y n) := selects_of_toNat (formatXYN_mask _ _ _ _)

theorem EncodingSelectsRow.skp (x : Reg) : EncodingSelectsRow.Statement (.skp x) := selects_of_toNat (formatXF_mask _ _ _)

theorem EncodingSelectsRow.sknp (x : Reg) : EncodingSelectsRow.Statement (.sknp x) := selects_of_toNat (formatXF_mask _ _ _)

theorem EncodingSelectsRow.ldVxDT (x : Reg) : EncodingSelectsRow.Statement (.ldVxDT x) := selects_of_toNat (formatXF_mask _ _ _)

theorem EncodingSelectsRow.ldVxK (x : Reg) : EncodingSelectsRow.Statement (.ldVxK x) := selects_of_toNat (formatXF_mask _ _ _)

theorem EncodingSelectsRow.ldDTVx (x : Reg) : EncodingSelectsRow.Statement (.ldDTVx x) := selects_of_toNat (formatXF_mask _ _ _)

theorem EncodingSelectsRow.ldSTVx (x : Reg) : EncodingSelectsRow.Statement (.ldSTVx x) := selects_of_toNat (formatXF_mask _ _ _)

theorem EncodingSelectsRow.addI (x : Reg) : EncodingSelectsRow.Statement (.addI x) := selects_of_toNat (formatXF_mask _ _ _)

theorem EncodingSelectsRow.ldF (x : Reg) : EncodingSelectsRow.Statement (.ldF x) := selects_of_toNat (formatXF_mask _ _ _)

theorem EncodingSelectsRow.ldB (x : Reg) : EncodingSelectsRow.Statement (.ldB x) := selects_of_toNat (formatXF_mask _ _ _)

theorem EncodingSelectsRow.storeRegs (x : Reg) : EncodingSelectsRow.Statement (.storeRegs x) := selects_of_toNat (formatXF_mask _ _ _)

theorem EncodingSelectsRow.loadRegs (x : Reg) : EncodingSelectsRow.Statement (.loadRegs x) := selects_of_toNat (formatXF_mask _ _ _)

/-- Every encoding selects its row: the lemmas above, together. -/
theorem encode_selects_row (i : Instr) : i.row.selects (encode i) = true :=
  match i with
  | .nop => EncodingSelectsRow.nop
  | .cls => EncodingSelectsRow.cls
  | .ret => EncodingSelectsRow.ret
  | .jp nnn => EncodingSelectsRow.jp nnn
  | .call nnn => EncodingSelectsRow.call nnn
  | .seImm x kk => EncodingSelectsRow.seImm x kk
  | .sneImm x kk => EncodingSelectsRow.sneImm x kk
  | .seReg x y => EncodingSelectsRow.seReg x y
  | .ldImm x kk => EncodingSelectsRow.ldImm x kk
  | .addImm x kk => EncodingSelectsRow.addImm x kk
  | .ldReg x y => EncodingSelectsRow.ldReg x y
  | .orReg x y => EncodingSelectsRow.orReg x y
  | .andReg x y => EncodingSelectsRow.andReg x y
  | .xorReg x y => EncodingSelectsRow.xorReg x y
  | .addReg x y => EncodingSelectsRow.addReg x y
  | .subReg x y => EncodingSelectsRow.subReg x y
  | .shr x y => EncodingSelectsRow.shr x y
  | .subn x y => EncodingSelectsRow.subn x y
  | .shl x y => EncodingSelectsRow.shl x y
  | .sneReg x y => EncodingSelectsRow.sneReg x y
  | .ldI nnn => EncodingSelectsRow.ldI nnn
  | .jpV0 nnn => EncodingSelectsRow.jpV0 nnn
  | .rnd x kk => EncodingSelectsRow.rnd x kk
  | .drw x y n => EncodingSelectsRow.drw x y n
  | .skp x => EncodingSelectsRow.skp x
  | .sknp x => EncodingSelectsRow.sknp x
  | .ldVxDT x => EncodingSelectsRow.ldVxDT x
  | .ldVxK x => EncodingSelectsRow.ldVxK x
  | .ldDTVx x => EncodingSelectsRow.ldDTVx x
  | .ldSTVx x => EncodingSelectsRow.ldSTVx x
  | .addI x => EncodingSelectsRow.addI x
  | .ldF x => EncodingSelectsRow.ldF x
  | .ldB x => EncodingSelectsRow.ldB x
  | .storeRegs x => EncodingSelectsRow.storeRegs x
  | .loadRegs x => EncodingSelectsRow.loadRegs x

end Sys2Proof.Laws
end

