-- ==== Sys2Proof/Tests/Slice0.lean ====
section
/-!
SUPPORT. The model's own tests: the well-formedness smoke test, words written out from the spec's encodings, vectors of
95_test_vectors.md (one step each), and a witness of the hypotheses of every statement that has any.
-/

namespace Sys2Proof.Tests

open Sys2Proof.Machine

/-! ### Helpers -/

/-- The next state of an outcome. -/
def next? : Result State → Option State
  | .next t => some t
  | .fault _ => none
  | .refused _ => none

/-- Is the outcome a refusal? -/
def refused? : Result State → Bool
  | .next _ => false
  | .fault _ => false
  | .refused _ => true

/-- One step from a state with a word placed at its pc. -/
def after (s : State) (w : Nat) : Option State := next? (step (s.withFetchWord 16 w))

/-- The state after reset with V[x] = a. -/
def withV (x : Reg) (a : Byte) : State := State.reset.writeV x a

/-- The state after reset with V[x] = a and V[y] = b. -/
def withVV (x : Reg) (a : Byte) (y : Reg) (b : Byte) : State := (withV x a).writeV y b

/-- The state after reset with a key pressed. -/
def withKey (k : Fin 16) : State := { State.reset with key := State.reset.key.set k.val true k.isLt }

/-- The state after reset with a full call stack, under a stack policy. -/
def fullStack (p : StackPolicy) : State :=
  { State.reset with sp := 16, params := { State.reset.params with stackPolicy := p } }

/-- The state after reset, halted. -/
def haltedState : State := State.reset.raise .stackUnderflow

/-! ### Well-formedness: an ill-formed term for each check, refused -/

theorem test_wellFormed_key : HostOp.wellFormed (.setKey 15 true) = true ∧ HostOp.wellFormed (.setKey 16 true) = false := by
  decide

theorem test_legalWord_low : legalWord 0x0000 = true ∧ legalWord 0x0001 = false ∧ legalWord 0x00E1 = false ∧
    legalWord 0x00EF = false ∧ legalWord 0x0FFF = false := by decide

theorem test_legalWord_subcodes : legalWord 0x5001 = false ∧ legalWord 0x8008 = false ∧ legalWord 0x800F = false ∧
    legalWord 0x900E = false ∧ legalWord 0xE000 = false ∧ legalWord 0xF01F = false := by decide

/-- The rows of the opcode map are pairwise distinct in what they select: no row's match value selects another. -/
theorem test_rows_disjoint : opcodeMap.all (fun r => opcodeMap.countP (fun q => q.selects r.value) == 1) = true := by decide

/-! ### Decoding: each constructor's word, bit by bit from the pattern of R105 -/

theorem test_decode_control :
    decode 0b0000000000000000 = .ok .nop ∧ decode 0b0000000011101110 = .ok .ret ∧
    decode 0b0001101010111100 = .ok (.jp 0xABC) ∧ decode 0b0010000100100011 = .ok (.call 0x123) ∧
    decode 0b0011101001000010 = .ok (.seImm 0xA 0x42) ∧ decode 0b0100101001000010 = .ok (.sneImm 0xA 0x42) ∧
    decode 0b0101101010110000 = .ok (.seReg 0xA 0xB) ∧ decode 0b1001101010110000 = .ok (.sneReg 0xA 0xB) ∧
    decode 0b1011001000010000 = .ok (.jpV0 0x210) := by decide

theorem test_decode_alu :
    decode 0b0110111101111110 = .ok (.ldImm 0xF 0x7E) ∧ decode 0b0111000011111111 = .ok (.addImm 0 0xFF) ∧
    decode 0b1000000100100000 = .ok (.ldReg 1 2) ∧ decode 0b1000000100100001 = .ok (.orReg 1 2) ∧
    decode 0b1000000100100010 = .ok (.andReg 1 2) ∧ decode 0b1000000100100011 = .ok (.xorReg 1 2) ∧
    decode 0b1000000100100100 = .ok (.addReg 1 2) ∧ decode 0b1000000100100101 = .ok (.subReg 1 2) ∧
    decode 0b1000000100100110 = .ok (.shr 1 2) ∧ decode 0b1000000100100111 = .ok (.subn 1 2) ∧
    decode 0b1000000100101110 = .ok (.shl 1 2) ∧ decode 0b1100001100001111 = .ok (.rnd 3 0x0F) := by decide

theorem test_decode_index :
    decode 0b1010001100000000 = .ok (.ldI 0x300) ∧ decode 0b1111000100011110 = .ok (.addI 1) ∧
    decode 0b1111000000101001 = .ok (.ldF 0) ∧ decode 0b1111000000110011 = .ok (.ldB 0) ∧
    decode 0b1111000101010101 = .ok (.storeRegs 1) ∧ decode 0b1111001001100101 = .ok (.loadRegs 2) := by decide

theorem test_decode_display_keys_timers :
    decode 0b0000000011100000 = .ok .cls ∧ decode 0b1101000000010101 = .ok (.drw 0 1 5) ∧
    decode 0b1110000110011110 = .ok (.skp 1) ∧ decode 0b1110000110100001 = .ok (.sknp 1) ∧
    decode 0b1111001100000111 = .ok (.ldVxDT 3) ∧ decode 0b1111001000001010 = .ok (.ldVxK 2) ∧
    decode 0b1111000000010101 = .ok (.ldDTVx 0) ∧ decode 0b1111010000011000 = .ok (.ldSTVx 4) := by decide

/-- Bytes: the most significant first, and two consumed (R100); a single byte is rejected by name. -/
theorem test_decodeBytes : decodeBytes [0x1A, 0xBC, 0x77] = .ok (.jp 0xABC, [0x77]) ∧
    decodeBytes [0x5A, 0xB1] = .error (.unimplemented 0x5AB1) ∧ decodeBytes [0x1A] = .error (.truncated [0x1A]) := by decide

theorem test_decodeTableWord : decodeTableWord 16 0xF265 = some (.loadRegs 2) ∧ decodeTableWord 16 0x0001 = none := by decide

/-! ### Control flow (vectors CF1 to CF18) -/

theorem test_nop : (after State.reset 0x0000).map (·.pc) = some 0x202 := by decide

theorem test_jp : (after State.reset 0x1ABC).map (·.pc) = some 0xABC := by decide

theorem test_call : (after State.reset 0x2300).map (fun t => (t.stack.get 0, t.sp, t.pc)) = some (0x202, 1, 0x300) := by decide

theorem test_call_full : (after (fullStack .fault) 0x2300).map (fun t => (t.status, t.pc, t.sp)) =
    some (.halted (.stackOverflow 0x202), 0x202, 16) ∧
    (after (fullStack .reference) 0x2300).map (fun t => (t.stack.get 0, t.sp, t.pc)) = some (0x202, 1, 0x300) := by decide

theorem test_ret : (after { State.reset with sp := 2, stack := State.reset.stack.set 1 0x400 } 0x00EE).map
    (fun t => (t.pc, t.sp)) = some (0x400, 1) := by decide

theorem test_ret_empty : (after State.reset 0x00EE).map (fun t => (t.status, t.pc)) =
    some (.halted .stackUnderflow, 0x202) := by decide

theorem test_seImm : (after (withV 0xA 0x42) 0x3A42).map (·.pc) = some 0x204 ∧
    (after (withV 0xA 0x43) 0x3A42).map (·.pc) = some 0x202 := by decide

theorem test_sneImm : (after (withV 0xA 0x42) 0x4A42).map (·.pc) = some 0x202 ∧
    (after (withV 0xA 0x43) 0x4A42).map (·.pc) = some 0x204 := by decide

theorem test_seReg : (after (withVV 0xA 9 0xB 9) 0x5AB0).map (·.pc) = some 0x204 := by decide

theorem test_sneReg : (after (withVV 0xA 1 0xB 2) 0x9AB0).map (·.pc) = some 0x204 ∧
    (after State.reset 0x9AA0).map (·.pc) = some 0x202 := by decide

theorem test_jpV0 : (after (withV 0 0xFF) 0xBFFF).map (·.pc) = some 0x10FE := by decide

theorem test_illegal : (after State.reset 0x5AB1).map (fun t => (t.status, t.pc)) =
    some (.halted (.unimplementedOpcode 0x5AB1), 0x202) := by decide

/-! ### ALU (the tables of 95_test_vectors.md and A1 to A16) -/

theorem test_ldImm : (after State.reset 0x6F7E).map (·.readV 0xF) = some 0x7E := by decide

theorem test_addImm_no_flag : (after (withVV 0 0xFF 0xF 0x55) 0x7001).map (fun t => (t.readV 0, t.readV 0xF)) =
    some (0x00, 0x55) := by decide

theorem test_ldReg : (after (withV 1 0x33) 0x8010).map (·.readV 0) = some 0x33 := by decide

theorem test_orReg : (after ((withVV 0 0x0F 1 0xF0).writeV 0xF 1) 0x8011).map (fun t => (t.readV 0, t.readV 0xF)) =
    some (0xFF, 1) := by decide

theorem test_andReg : (after (withVV 0 0x3C 1 0x0F) 0x8012).map (·.readV 0) = some 0x0C := by decide

theorem test_xorReg : (after (withVV 0 0xFF 1 0x0F) 0x8013).map (·.readV 0) = some 0xF0 := by decide

theorem test_addReg : (after (withVV 0 0xFF 1 0x01) 0x8014).map (fun t => (t.readV 0, t.readV 0xF)) =
    some (0x00, 1) := by decide

theorem test_addReg_to_VF : (after (withVV 0xF 0x02 0 0x03) 0x8F04).map (·.readV 0xF) = some 0 := by decide

theorem test_subReg : (after (withVV 0 0x05 1 0x0A) 0x8015).map (fun t => (t.readV 0, t.readV 0xF)) =
    some (0xFB, 0) := by decide

theorem test_subReg_same : (after (withV 1 0x77) 0x8115).map (fun t => (t.readV 1, t.readV 0xF)) = some (0, 1) := by decide

theorem test_shr_ignores_y : (after (withVV 1 0xFF 2 0xAA) 0x8126).map (fun t => (t.readV 1, t.readV 0xF)) =
    some (0x7F, 1) := by decide

theorem test_shr_VF : (after (withV 0xF 0x03) 0x8F06).map (·.readV 0xF) = some 1 := by decide

theorem test_subn : (after (withVV 0 0x0A 1 0x05) 0x8017).map (fun t => (t.readV 0, t.readV 0xF)) =
    some (0xFB, 0) := by decide

theorem test_shl_ignores_y : (after (withVV 1 0x80 2 0xAA) 0x812E).map (fun t => (t.readV 1, t.readV 0xF)) =
    some (0x00, 1) := by decide

theorem test_rnd : (after State.reset 0xC30F).map (fun t => (t.readV 3, t.draws)) =
    some (Config.randomByte 0 &&& 0x0F, 1) := rfl

/-! ### Register I and memory (M1 to M11) -/

theorem test_ldI : (after State.reset 0xAFFF).map (·.regI) = some 0x0FFF := by decide

theorem test_addI_wraps : (after { withV 0 0x20 with regI := 0xFFF0 } 0xF01E).map (·.regI) = some 0x0010 := by decide

theorem test_ldF_unmasked : (after (withV 0 0xFF) 0xF029).map (·.regI) = some 0x04FB := by decide

theorem test_ldB_wraps : (after { withV 0 123 with regI := 0xFFE } 0xF033).map
    (fun t => (t.readByte 0xFFE, t.readByte 0xFFF, t.readByte 0x000, t.regI)) = some (1, 2, 3, 0xFFE) := by decide

theorem test_storeRegs : (after { withVV 0 1 1 2 with regI := 0x300 } 0xF155).map
    (fun t => (t.readByte 0x300, t.readByte 0x301, t.readByte 0x302, t.regI)) = some (1, 2, 0, 0x300) := by decide

theorem test_storeRegs_wraps : (after { withVV 8 9 0xF 0x10 with regI := 0xFF8 } 0xFF55).map
    (fun t => (t.readByte 0x000, t.readByte 0x007)) = some (9, 0x10) := by decide

theorem test_loadRegs_mod : (after { (withV 1 7).writeByte 0x005 0x20 with regI := 0x1005 } 0xF065).map
    (fun t => (t.readV 0, t.readV 1, t.regI)) = some (0x20, 7, 0x1005) := by decide

/-! ### Display (DP1 to DP11) -/

theorem test_cls : (after { State.reset with fb := fbToggle State.reset.fb 5 8 } 0x00E0).map (·.fb) =
    some State.reset.fb := by decide

theorem test_drw_wraps : (after { (withV 0 60).writeByte 0x300 0xFF with regI := 0x300 } 0xD011).map
    (fun t => ([59, 60, 63, 0, 3, 4].map (fbCell t.fb · 0), t.readV 0xF)) =
    some ([false, true, true, true, true, false], 0) := by decide

theorem test_drw_collides_reads_VF_first : (after { (withV 0xF 10).writeByte 0x300 0x80 with
    regI := 0x300, fb := fbToggle State.reset.fb 10 0 } 0xDF01).map (fun t => (fbCell t.fb 10 0, t.readV 0xF)) =
    some (false, 1) := by decide

/-! ### Keys and timers (K1 to K12) -/

theorem test_skp : (after ((withKey 5).writeV 0 5) 0xE09E).map (·.pc) = some 0x204 ∧
    (after (withV 0 5) 0xE09E).map (·.pc) = some 0x202 := by decide

theorem test_skp_out_of_range : (after (withV 0 0x10) 0xE09E).map (fun t => (t.status, t.pc)) =
    some (.halted (.keyIndexOutOfRange 0x10), 0x202) := by decide

theorem test_sknp : (after ((withKey 5).writeV 0 5) 0xE0A1).map (·.pc) = some 0x202 ∧
    (after (withV 0 5) 0xE0A1).map (·.pc) = some 0x204 := by decide

theorem test_sknp_out_of_range : (after (withV 0 0xFF) 0xE0A1).map (·.status) =
    some (.halted (.keyIndexOutOfRange 0xFF)) := by decide

theorem test_ldVxDT : (after { State.reset with dt := 0x3C } 0xF307).map (·.readV 3) = some 0x3C := by decide

theorem test_ldVxK_waits : (after State.reset 0xF20A).map (·.pc) = some 0x200 := by decide

theorem test_ldVxK_lowest : (after { withKey 9 with key := (withKey 9).key.set 3 true } 0xF20A).map
    (fun t => (t.readV 2, t.pc, t.key.get 3)) = some (3, 0x202, true) := by decide

theorem test_ldDTVx : (after (withV 0 5) 0xF015).map (·.dt) = some 5 := by decide

theorem test_ldSTVx_no_event : (after { State.reset with st := 1 } 0xF018).map (fun t => (t.st, t.soundEvents)) =
    some (0, 0) := by decide

/-! ### The host's operations and the fetch (K9, K11, X2, X3, X5, X8, W10) -/

theorem test_tick_expires : (State.tick { State.reset with st := 1, dt := 3 }).soundEvents = 1 ∧
    (State.tick { State.reset with st := 1, dt := 3 }).dt = 2 ∧ State.tick State.reset = State.reset := by decide

theorem test_halted_does_nothing : next? (step haltedState) = some haltedState ∧ haltedState.tick = haltedState := by decide

theorem test_fetch_past_end : next? (step { State.reset with pc := 0xFFF }) =
    some { State.reset with pc := 0xFFF, status := .halted (.outOfBounds 0xFFF) } := by decide

theorem test_fetch_odd : (after { State.reset with pc := 0x203 } 0x6007).map (fun t => (t.readV 0, t.pc)) =
    some (7, 0x205) := by decide

theorem test_load_program : (next? (operate (.loadProgram [0x60, 0x0A]) State.reset)).map
    (fun t => (t.readByte 0x200, t.readByte 0x201, t.loaded, refused? (operate (.loadProgram []) t))) =
    some (0x60, 0x0A, true, true) := by decide

theorem test_schedule : (next? (step { State.reset with dt := 2, schedule := [.tick, .cycle] })).map
    (fun t => (t.dt, t.pc, t.schedule)) = some (1, 0x200, [.cycle]) := by decide

theorem test_ended : ({ State.reset with pc := 0x20C, mem := [(0x20C, 0x12), (0x20D, 0x0C)] } : State).ended = true ∧
    State.reset.ended = false ∧ haltedState.ended = true := by decide

/-! ### Witnesses: a state and operands that meet the hypotheses of each statement that has any -/

theorem witness_EncodeOfDecodeIsTheWord : decode 0x8126 = .ok (.shr 1 2) := by decide

theorem witness_DecoderFollowsOpcodeMap : decode 0xF065 = .ok (.loadRegs 0) ∧ legalWord 0x0001 = false := by decide

theorem witness_CycleRunsDecodedInstruction : State.reset.status = .running ∧ State.reset.pc.toNat + 1 < 4096 ∧
    decode (State.reset.wordAt State.reset.pc.toNat) = .ok .nop := by decide

theorem witness_StepRunsDecodedInstruction : State.reset.nextOp = .cycle ∧ State.reset.status = .running ∧
    State.reset.pc.toNat + 1 < 4096 ∧ decode (State.reset.wordAt State.reset.pc.toNat) = .ok .nop := by decide

theorem witness_StepConsumesOneHostOperation : (next? (step { State.reset with schedule := [.tick, .cycle] })).isSome = true := by
  decide

theorem witness_FetchIsBigEndianAndAdvances : ({ State.reset with pc := 0xFFE } : State).pc.toNat + 1 < 4096 ∧
    (0xFFE : Addr).toNat = ({ State.reset with pc := 0xFFE } : State).pc.toNat ∧
    (0xFFF : Addr).toNat = ({ State.reset with pc := 0xFFE } : State).pc.toNat + 1 := by decide

theorem witness_FetchPastTheEndHalts : State.reset.status = .running ∧
    4096 ≤ ({ State.reset with pc := 0xFFF } : State).pc.toNat + 1 := by decide

theorem witness_IllegalWordHalts : (State.reset.placeWord 0x5001).status = .running ∧
    (State.reset.placeWord 0x5001).pc.toNat + 1 < 4096 ∧
    legalWord ((State.reset.placeWord 0x5001).wordAt (State.reset.placeWord 0x5001).pc.toNat) = false := by decide

theorem witness_CycleFaults_fetch : next? ({ State.reset with pc := 0xFFF } : State).cycle =
    some { State.reset with pc := 0xFFF, status := .halted (.outOfBounds 0xFFF) } := by decide

theorem witness_CycleFaults_decode : (next? (State.reset.placeWord 0x8008).cycle).map (·.status) =
    some (.halted (.unimplementedOpcode 0x8008)) := by decide

theorem witness_CycleFaults_overflow : (next? ((fullStack .fault).placeWord 0x2300).cycle).map (·.status) =
    some (.halted (.stackOverflow 0x202)) := by decide

theorem witness_CycleFaults_underflow : (next? (State.reset.placeWord 0x00EE).cycle).map (·.status) =
    some (.halted .stackUnderflow) := by decide

theorem witness_CycleFaults_key : (next? ((withV 0 0x10).placeWord 0xE09E).cycle).map (·.status) =
    some (.halted (.keyIndexOutOfRange 0x10)) := by decide

theorem witness_HaltedUntilCreate : haltedState.status = .halted .stackUnderflow ∧
    next? (operate (.setKey 15 true) haltedState) = some { haltedState with key := haltedState.key.set 15 true } ∧
    HostOp.tick ≠ HostOp.create := by decide

theorem witness_StepKeepsMemoryCanonical : State.reset.memoryCanonical ∧
    next? (step State.reset) = some { State.reset with pc := 0x202 } := ⟨rfl, by decide⟩

theorem witness_StepKeepsAddressesInRange : State.reset.pc.toNat ≤ 0x10FE ∧
    (∀ k : Fin 16, (State.reset.stack.get k).toNat ≤ 0x1000 ∧
      (k.val < State.reset.sp.val → 0x002 ≤ (State.reset.stack.get k).toNat)) ∧
    next? (step State.reset) = some { State.reset with pc := 0x202 } := by decide

theorem witness_StepKeepsParameters : next? (step State.reset) = some { State.reset with pc := 0x202 } := by decide

/-- An instruction of each shape answers a next state: the hypothesis of the statements about every instruction. -/
theorem witness_EveryInstructionChangesOnlyItsParts : next? (exec (.addReg 0 1) State.reset) =
    some (State.reset.writeWithFlag 0 0 0) ∧ writesV (.addReg 0 1) 2 = false ∧
    (next? (exec (.ldI 0x300) State.reset)).isSome = true ∧ (next? (exec (.jp 0x300) State.reset)).isSome = true := by decide

theorem witness_RegistersWritten_noKey : (∀ k : Fin 16, State.reset.key.get k = false) ∧
    (next? (exec (.ldVxK 2) State.reset)).isSome = true := by decide

/-- RET from the first frame and from the last, and from an empty stack under each policy; CALL onto a full stack. -/
theorem witness_PcWritersAreThoseListed :
    (next? (exec .ret { State.reset with sp := 1, stack := State.reset.stack.set 0 0x204 })).map (·.pc) = some 0x204 ∧
    (next? (exec .ret { fullStack .fault with stack := State.reset.stack.set 15 0x206 })).map (·.pc) = some 0x206 ∧
    (next? (exec .ret State.reset)).map (·.pc) = some 0x200 ∧
    (next? (exec .ret { fullStack .reference with sp := 0, stack := State.reset.stack.set 0 0x208 })).map (·.pc) =
      some 0x208 ∧
    (next? (exec (.call 0x300) (fullStack .fault))).map (·.pc) = some 0x200 ∧
    (next? (exec (.call 0x300) (fullStack .reference))).map (·.pc) = some 0x300 := by decide

theorem witness_NoInstructionReadsTheSoundTimer : (next? (exec (.ldSTVx 0) State.reset)).isSome = true := by decide

theorem witness_NopChangesNothing : decode 0x0000 = .ok .nop := by decide

theorem witness_ZeroMemorySlidesToOutOfBounds : (∀ a : Addr, 0xFFE ≤ a.toNat → State.reset.readByte a = 0) ∧
    State.reset.status = .running ∧ State.reset.schedule = [] ∧
    ({ State.reset with pc := 0xFFE } : State).pc.toNat + 2 * 1 = 4096 := by
  refine ⟨fun a h => ?_, by decide⟩
  show unlistedByte _ _ = 0
  rw [unlistedByte, dif_neg (by omega)]

theorem witness_RetPopsTheReturnAddress_frames : (fullStack .fault).sp.val = (15 : Fin 16).val + 1 ∧
    ({ State.reset with sp := 1 } : State).sp.val = (0 : Fin 16).val + 1 := by decide

theorem witness_RetPopsTheReturnAddress_empty : State.reset.sp = 0 ∧ State.reset.params.stackPolicy = .fault ∧
    ({ fullStack .reference with sp := 0 } : State).sp = 0 ∧ (fullStack .reference).params.stackPolicy = .reference := by decide

theorem witness_JumpSetsPc : (0xFFF : Addr) = 0xFFF ∧ (State.reset.placeWord 0x1200).status = .running ∧
    (State.reset.placeWord 0x1200).pc.toNat = (0x200 : Addr).toNat ∧ (0x200 : Addr).toNat + 1 < 4096 ∧
    decode ((State.reset.placeWord 0x1200).wordAt (0x200 : Addr).toNat) = .ok (.jp 0x200) := by decide

theorem witness_CallPushesTheReturnAddress_room : State.reset.sp.val = (0 : Fin 16).val ∧
    ({ State.reset with sp := 15 } : State).sp.val = (15 : Fin 16).val := by decide

theorem witness_CallPushesTheReturnAddress_full : (fullStack .fault).sp = 16 ∧
    (fullStack .fault).params.stackPolicy = .fault ∧ (fullStack .reference).sp = 16 ∧
    (fullStack .reference).params.stackPolicy = .reference := by decide

theorem witness_SkipOnRegisters : fieldMsb 0x5AB1 = 0x5 ∧ fieldN 0x5AB1 ≠ 0 ∧ fieldMsb 0x900E = 0x9 ∧ fieldN 0x900E ≠ 0 := by
  decide

theorem witness_JumpWithOffsetDoesNotWrap : 0xFFF ≤ (0xF00 : Addr).toNat + ((withV 0 0xFF).readV 0).toNat := by decide

theorem witness_RandomByteIsMasked : (0x0F : Byte).getLsbD 4 = false := by decide

theorem witness_DecimalDigitsAreStored : ∀ k : Nat, k < 3 → (0x303 : Addr) ≠ ({ State.reset with regI := 0x300 } : State).dataAddr k := by
  decide

theorem witness_RegistersAreStored : (0xF : Reg) ≤ 0xF ∧ (0x001 : Addr) = ({ State.reset with regI := 0xFF2 } : State).dataAddr 15 ∧
    ∀ k : Reg, k ≤ 0xF → (0x310 : Addr) ≠ ({ State.reset with regI := 0x300 } : State).dataAddr k.val := by decide

theorem witness_StoreThenLoadRestoresRegisters : ∃ t, exec (.storeRegs 1) { State.reset with regI := 0x300 } = .next t ∧
    (∃ w, exec (.loadRegs 1) t = .next w) ∧ t.regI = t.regI ∧ ∀ a, t.readByte a = t.readByte a :=
  ⟨_, rfl, ⟨_, rfl⟩, rfl, fun _ => rfl⟩

theorem witness_StoresAreSeenByFetch : ∃ t, exec (.storeRegs 1) { State.reset with regI := 0x200 } = .next t ∧
    (0 : Reg) ≤ 1 ∧ (1 : Reg) ≤ 1 ∧ (0x200 : Word).toNat + 1 < 4096 ∧
    (({ State.reset with regI := 0x200 } : State).dataAddr 0).toNat = (0x200 : Word).toNat ∧
    (({ State.reset with regI := 0x200 } : State).dataAddr 1).toNat = (0x200 : Word).toNat + 1 :=
  ⟨_, rfl, by decide, by decide, by decide, by decide, by decide⟩

theorem witness_DrawTwiceErases : ∃ t u, (0 : Reg) ≠ 15 ∧ (1 : Reg) ≠ 15 ∧ exec (.drw 0 1 5) State.reset = .next t ∧
    exec (.drw 0 1 5) t = .next u := ⟨_, _, by decide, by decide, rfl, rfl⟩

theorem witness_DrawTwiceErases_clear : ∀ px py, fbCell State.reset.fb px py = false := by decide

theorem witness_KeySkipsReadTheLatch : ((withV 0 15).readV 0).toNat = (15 : Fin 16).val ∧
    16 ≤ ((withV 0 16).readV 0).toNat := by decide

theorem witness_WaitForKey : (∀ k : Fin 16, State.reset.key.get k = false) ∧ (withKey 15).key.get 15 = true ∧
    (∀ j : Fin 16, j < 15 → (withKey 15).key.get j = false) ∧ (State.reset.placeWord 0xF20A).status = .running ∧
    decode ((State.reset.placeWord 0xF20A).wordAt (State.reset.placeWord 0xF20A).pc.toNat) = .ok (.ldVxK 2) := by decide

theorem witness_TickCountsBothTimersDown : State.reset.status = .running := by decide

theorem witness_SetKeyWritesTheLatch : (15 : Fin 16).val = 15 ∧ 16 ≤ 16 := by decide

theorem witness_LoadProgram_accepted : State.reset.status = .running ∧ State.reset.loaded = false ∧
    ([] : List Byte).length ≤ 3584 ∧ (List.replicate 3584 (0 : Byte)).length ≤ 3584 ∧
    (0xFFF : Addr).toNat = 0x200 + 3583 := by
  refine ⟨by decide, by decide, by decide, ?_, by decide⟩
  rw [List.length_replicate]

theorem witness_LoadProgram_capacity : 3584 < (List.replicate 3585 (0 : Byte)).length := by
  rw [List.length_replicate]; decide

theorem witness_LoadProgram_refused : haltedState.status ≠ .running ∧ ({ State.reset with loaded := true } : State).loaded = true := by
  decide

theorem witness_CreateGivesTheFreshState : (0x04F : Addr).toNat < 80 ∧ 80 ≤ (0x050 : Addr).toNat := by decide

end Sys2Proof.Tests
end

section
/-!
The frame of every instruction, assembled from the frames of the shared operations, and from it the invariant that no step
changes the parameters of the machine (R6).
-/

namespace Sys2Proof.Machine

/-! ### Frames compose -/

theorem Part.same.trans {p : Part} {s t u : State} (h : p.same s t) (h' : p.same t u) : p.same s u := by
  cases p with
  | v => exact fun r => (h' r).trans (h r)
  | mem => exact fun a => (h' a).trans (h a)
  | _ => exact Eq.trans h' h

theorem ChangesOnly.trans {parts : List Part} {s t u : State} (h : ChangesOnly parts s t) (h' : ChangesOnly parts t u) :
    ChangesOnly parts s u := fun p hp => (h p hp).trans (h' p hp)

/-- The frame of an instruction that ends with its effect. -/
theorem ChangesOnly.of_next {parts : List Part} {s t u : State} (hu : ChangesOnly parts s u)
    (h : (.next u : Result State) = .next t) : ChangesOnly parts s t := by
  cases h
  exact hu

/-- The frame of an instruction that can raise a fatal condition: its effect's frame and `status` (R302, R303). -/
theorem ChangesOnly.of_finish {parts : List Part} {s t : State} {r : Except Fatal State}
    (hok : ∀ u, r = .ok u → ChangesOnly parts s u) (hstatus : .status ∈ parts) (h : finish s r = .next t) :
    ChangesOnly parts s t := by
  obtain ⟨u, hr, hu⟩ | ⟨f, -, hf⟩ := finish_cases s r
  · exact (hok u hr).of_next (hu.symm.trans h)
  · exact ((s.raise_changes f).mono (by simpa using hstatus)).of_next (hf.symm.trans h)

/-! ### The instructions whose frame is not that of one operation -/

theorem execCls_changes {s t : State} (h : execCls s = .next t) : ChangesOnly [.fb] s t := by
  cases h
  intro p hp
  cases p with
  | fb => simp at hp
  | v | mem => exact fun _ => rfl
  | _ => rfl

theorem execRet_changes {s t : State} (h : execRet s = .next t) : ChangesOnly [.pc, .sp, .status] s t := by
  refine .of_finish (fun u hu => ?_) (by decide) h
  cases hp : s.pop with
  | error f => simp [hp, Except.map] at hu
  | ok p =>
    obtain rfl : p.2.jump p.1 = u := by simpa [hp, Except.map] using hu
    exact ((State.pop_changes hp).mono (by decide)).trans ((p.2.jump_changes p.1).mono (by decide))

theorem execCall_changes {nnn : Addr} {s t : State} (h : execCall nnn s = .next t) :
    ChangesOnly [.pc, .stack, .sp, .status] s t := by
  refine .of_finish (fun u hu => ?_) (by decide) h
  cases hp : s.push s.pc with
  | error f => simp [hp, Except.map] at hu
  | ok p =>
    obtain rfl : p.jump (zextAddr nnn) = u := by simpa [hp, Except.map] using hu
    exact ((State.push_changes hp).mono (by decide)).trans ((p.jump_changes _).mono (by decide))

/-- SKP and SKNP: a skip on any condition of the key's cell (R260). -/
theorem keySkip_changes {s t : State} {v : Byte} {c : Bool → Bool}
    (h : finish s ((s.keyAt v).map (fun down => s.skipIf (c down))) = .next t) : ChangesOnly [.pc, .status] s t := by
  refine .of_finish (fun u hu => ?_) (by decide) h
  cases hk : s.keyAt v with
  | error f => simp [hk, Except.map] at hu
  | ok down =>
    obtain rfl : s.skipIf (c down) = u := by simpa [hk, Except.map] using hu
    exact (s.skipIf_changes _).mono (by decide)

theorem execLdVxK_changes {x : Reg} {s t : State} (h : execLdVxK x s = .next t) : ChangesOnly [.v, .pc] s t := by
  unfold execLdVxK at h
  cases hk : s.lowestKey with
  | none => exact ((s.jump_changes _).mono (by decide)).of_next (by simpa [hk] using h)
  | some k => exact ((s.writeV_changes x _).mono (by decide)).of_next (by simpa [hk] using h)

/-! ### Every instruction -/

/-- An instruction changes no part but those its rule writes. -/
theorem exec_changes {i : Instr} {s t : State} (h : exec i s = .next t) : ChangesOnly (partsWritten i) s t := by
  cases i with
  | nop => exact (ChangesOnly.refl _ s).of_next h
  | cls => exact execCls_changes h
  | ret => exact execRet_changes h
  | call nnn => exact execCall_changes h
  | jp _ | jpV0 _ => exact (s.jump_changes _).of_next h
  | seImm _ _ | sneImm _ _ | seReg _ _ | sneReg _ _ => exact (s.skipIf_changes _).of_next h
  | ldImm _ _ | addImm _ _ | ldReg _ _ | orReg _ _ | andReg _ _ | xorReg _ _ | ldVxDT _ =>
    exact (s.writeV_changes _ _).of_next h
  | addReg _ _ | subReg _ _ | shr _ _ | subn _ _ | shl _ _ => exact (s.writeWithFlag_changes _ _ _).of_next h
  | rnd x _ => exact (s.randomWrite_changes x _).of_next h
  | drw _ _ _ => exact (s.setDrawn_changes _).of_next h
  | ldI _ | addI _ | ldF _ => exact (s.writeI_changes _).of_next h
  | ldB _ | storeRegs _ => exact (s.writeDataFrom_changes 0 _).of_next h
  | loadRegs _ => exact (s.loadFirst_changes _).of_next h
  | skp _ => exact keySkip_changes (c := id) h
  | sknp _ => exact keySkip_changes (c := not) h
  | ldVxK _ => exact execLdVxK_changes h
  | ldDTVx _ => exact (s.writeDT_changes _).of_next h
  | ldSTVx _ => exact (s.writeST_changes _).of_next h

theorem params_not_mem_partsWritten (i : Instr) : .params ∉ partsWritten i := by
  cases i <;> simp [partsWritten]

/-! ### The parameters are fixed (R6) -/

theorem exec_params {i : Instr} {s t : State} (h : exec i s = .next t) : t.params = s.params :=
  exec_changes h .params (params_not_mem_partsWritten i)

theorem State.cycle_params {s t : State} (h : s.cycle = .next t) : t.params = s.params := by
  obtain ⟨f, -, hc⟩ | ⟨-, -, hc⟩ | ⟨-, -, -, hc⟩ | ⟨-, -, i, -, hc⟩ := s.cycle_cases <;> rw [hc] at h
  · cases h; rfl
  · cases h; rfl
  · cases h; rfl
  · exact exec_params (s := { s with pc := s.pc + 2 }) h

theorem State.loadProgram_params {s t : State} {bs : List Byte} (h : s.loadProgram bs = .next t) :
    t.params = s.params := by
  obtain ⟨-, hl⟩ | ⟨-, -, -, hl⟩ | ⟨-, -, -, hl⟩ := s.loadProgram_cases bs <;> rw [hl] at h <;> cases h <;> rfl

theorem State.setKey_params {s t : State} {k : Nat} {pressed : Bool} (h : s.setKey k pressed = .next t) :
    t.params = s.params := by
  obtain ⟨_, hk⟩ | ⟨-, hk⟩ := s.setKey_cases k pressed <;> rw [hk] at h <;> cases h
  rfl

@[simp] theorem State.create_params (s : State) : s.create.params = s.params := rfl

@[simp] theorem State.tick_params (s : State) : s.tick.params = s.params := by
  obtain ⟨-, -, ht⟩ | ⟨-, ht⟩ := s.tick_cases <;> rw [ht]

theorem step_params {s t : State} (h : step s = .next t) : t.params = s.params := by
  obtain rfl | ⟨bs, hl⟩ | hc | rfl | ⟨k, pressed, hk⟩ | rfl := step_cases h
  · exact s.takeOp.create_params
  · exact (State.loadProgram_params hl).trans s.takeOp_params
  · exact (State.cycle_params hc).trans s.takeOp_params
  · exact s.takeOp.tick_params
  · exact (State.setKey_params hk).trans s.takeOp_params
  · exact s.takeOp_params

/-- Settles O19: each host operation keeps the parameters, a cycle because no instruction's frame lists them. -/
theorem stepKeepsParameters : Obligations.StepKeepsParameters := fun _ _ => step_params

end Sys2Proof.Machine
end

section
/-!
The rule by which a step keeps a predicate: every host operation keeps it, the fetch keeps it, and so does every instruction
that runs after a fetch. And what the two instruction shapes with more than one end can answer: those that can raise a fatal
condition, and Fx0A.
-/

namespace Sys2Proof.Machine

/-! ### A predicate that every step keeps -/

/-- What has to be shown of a predicate for every step to keep it (R50, R108): one field per way in which a host operation
can end. An instruction runs on the state after the fetch, whose pc is then from 2 to 4096 (R36, R75). -/
structure KeptByStep (P : State → Prop) : Prop where
  create : ∀ {s}, P s → P s.create
  raise : ∀ {s} (f : Fatal), P s → P (s.raise f)
  load : ∀ {s} (bs : List Byte), bs.length ≤ 3584 → P s →
    P { s with mem := Memory.copy s.params.font s.mem 0x200 bs, loaded := true }
  timers : ∀ {s} (dt st : Byte) (events : Nat), P s → P { s with dt := dt, st := st, soundEvents := events }
  keys : ∀ {s} (key : Vector Bool 16), P s → P { s with key := key }
  fetch : ∀ {s}, s.pc.toNat + 1 < 4096 → P s → P { s with pc := s.pc + 2 }
  instr : ∀ {i s t}, 2 ≤ s.pc.toNat → s.pc.toNat ≤ 4096 → exec i s = .next t → P s → P t

/-- The pc after a fetch (R75). -/
theorem fetchedPc_toNat {pc : Word} (h : pc.toNat + 1 < 4096) : (pc + 2).toNat = pc.toNat + 2 := by
  have h2 : (2 : Word).toNat = 2 := rfl
  rw [BitVec.toNat_add, h2]
  omega

section
variable {P : State → Prop} {s t : State}

theorem KeptByStep.cycle (hP : KeptByStep P) (h : s.cycle = .next t) (hs : P s) : P t := by
  obtain ⟨f, -, hc⟩ | ⟨-, -, hc⟩ | ⟨-, hpc, -, hc⟩ | ⟨-, hpc, i, -, hc⟩ := s.cycle_cases <;> rw [hc] at h
  · cases h; exact hs
  · cases h; exact hP.raise _ hs
  · cases h; exact hP.raise _ (hP.fetch hpc hs)
  · have hpc' := fetchedPc_toNat hpc
    exact hP.instr (by rw [hpc']; omega) (by rw [hpc']; omega) h (hP.fetch hpc hs)

theorem KeptByStep.loadProgram (hP : KeptByStep P) {bs : List Byte} (h : s.loadProgram bs = .next t) (hs : P s) :
    P t := by
  obtain ⟨-, hl⟩ | ⟨-, -, -, hl⟩ | ⟨-, -, hlen, hl⟩ := s.loadProgram_cases bs <;> rw [hl] at h <;> cases h
  · exact hP.raise _ hs
  · exact hP.load bs hlen hs

theorem KeptByStep.tick (hP : KeptByStep P) (hs : P s) : P s.tick := by
  obtain ⟨_, -, ht⟩ | ⟨-, ht⟩ := s.tick_cases <;> rw [ht]
  · exact hs
  · exact hP.timers _ _ _ hs

theorem KeptByStep.setKey (hP : KeptByStep P) {k : Nat} {pressed : Bool} (h : s.setKey k pressed = .next t) (hs : P s) :
    P t := by
  obtain ⟨_, hk⟩ | ⟨-, hk⟩ := s.setKey_cases k pressed <;> rw [hk] at h <;> cases h
  exact hP.keys _ hs

/-- A step keeps the predicate from the state with the operation taken off the schedule. -/
theorem KeptByStep.step (hP : KeptByStep P) (h : Machine.step s = .next t) (hs : P s.takeOp) : P t := by
  obtain rfl | ⟨bs, hl⟩ | hc | rfl | ⟨k, pressed, hk⟩ | rfl := step_cases h
  · exact hP.create hs
  · exact hP.loadProgram hl hs
  · exact hP.cycle hc hs
  · exact hP.tick hs
  · exact hP.setKey hk hs
  · exact hs

end

/-! ### Instructions with more than one end -/

/-- What an instruction that can raise a fatal condition can answer (R303): its effect on what the raising operation gave, or
the fatal condition. -/
theorem finish_map_cases {α : Type} {s t : State} {r : Except Fatal α} {effect : α → State}
    (h : finish s (r.map effect) = .next t) :
    (∃ a, r = .ok a ∧ t = effect a) ∨ (∃ f, r = .error f ∧ t = s.raise f) := by
  cases r with
  | ok a => cases h; exact .inl ⟨a, rfl, rfl⟩
  | error f => cases h; exact .inr ⟨f, rfl, rfl⟩

/-- What Fx0A can answer (R264): back to itself while every key is released, else the number of a key in V[x]. -/
theorem execLdVxK_cases {x : Reg} {s t : State} (h : execLdVxK x s = .next t) :
    ((∀ k, s.key.get k = false) ∧ t = s.jump (s.pc - 2)) ∨
    (∃ j : Fin 16, s.key.get j = true ∧ t = s.writeV x (BitVec.ofNat 8 j.val)) := by
  obtain ⟨hk, hall⟩ | ⟨j, hk, hj, -⟩ := s.lowestKey_cases <;> simp only [execLdVxK, hk] at h <;> cases h
  · exact .inl ⟨hall, rfl⟩
  · exact .inr ⟨j, hj, rfl⟩

end Sys2Proof.Machine
end

section
/-!
The frame of every instruction part by part (R34, R35, R37) and the schedule, which a step only shortens (R50).
-/

namespace Sys2Proof.Machine

/-! ### The schedule (R50, R310) -/

theorem schedule_not_mem_partsWritten (i : Instr) : .schedule ∉ partsWritten i := by
  cases i <;> simp [partsWritten]

theorem exec_schedule {i : Instr} {s t : State} (h : exec i s = .next t) : t.schedule = s.schedule :=
  exec_changes h .schedule (schedule_not_mem_partsWritten i)

/-- No operation and no instruction touches the schedule: `step` alone takes its first operation off. -/
theorem keptByStep_schedule (ops : List HostOp) : KeptByStep (fun s => s.schedule = ops) where
  create h := h
  raise _ h := h
  load _ _ h := h
  timers _ _ _ h := h
  keys _ h := h
  fetch _ h := h
  instr _ _ h hs := (exec_schedule h).trans hs

/-- Settles O8: the state with the operation taken off has the rest of the schedule, and the operation keeps it. -/
theorem stepConsumesOneHostOperation : Obligations.StepConsumesOneHostOperation := fun s _ h =>
  (keptByStep_schedule s.schedule.tail).step h rfl

/-! ### The frame of every instruction -/

/-- Settles O20: the frame of every instruction, from the frames of the shared operations. -/
theorem everyInstructionChangesOnlyItsParts : Obligations.EveryInstructionChangesOnlyItsParts := fun _ _ _ => exec_changes

/-- Settles O22: by the frame, since no other instruction's parts list I. -/
theorem onlyThreeInstructionsWriteI : Obligations.OnlyThreeInstructionsWriteI := by
  intro i s t h
  cases i with
  | ldI nnn => exact .inl ⟨nnn, rfl⟩
  | addI x => exact .inr (.inl ⟨x, rfl⟩)
  | ldF x => exact .inr (.inr (.inl ⟨x, rfl⟩))
  | _ => exact .inr (.inr (.inr (exec_changes h .regI (by simp [partsWritten]))))

/-! ### The registers written (R34) -/

theorem State.readV_writeV_of_ne {s : State} {x r : Reg} (h : (r == x) = false) (b : Byte) :
    (s.writeV x b).readV r = s.readV r := by
  rw [State.readV_writeV, if_neg (by simpa using h)]

theorem State.readV_writeWithFlag_of_ne {s : State} {x r : Reg} (h : (r == x || r == 15) = false) (a b : Byte) :
    (s.writeWithFlag x a b).readV r = s.readV r := by
  obtain ⟨hx, hf⟩ : r ≠ x ∧ r ≠ 15 := by simpa using h
  rw [State.readV_writeWithFlag, if_neg hf, if_neg hx]

theorem State.readV_loadFirst_of_lt {s : State} {x r : Reg} (h : x < r) : (s.loadFirst (x.val + 1)).readV r = s.readV r := by
  have hr : ¬ r.val < x.val + 1 := by have := Fin.lt_def.mp h; omega
  rw [State.readV_loadFirst s r _ x.isLt, if_neg hr]

/-- A register that the table does not list for an instruction is left alone: by the frame where the instruction writes no
register, else since the register differs from those written. -/
theorem exec_readV_of_not_writesV {i : Instr} {s t : State} {r : Reg} (h : exec i s = .next t) (hr : writesV i r = false) :
    t.readV r = s.readV r := by
  cases i with
  | ldImm _ _ | addImm _ _ | ldReg _ _ | orReg _ _ | andReg _ _ | xorReg _ _ | ldVxDT _ =>
    cases h; exact State.readV_writeV_of_ne hr _
  | rnd _ _ => cases h; exact State.readV_writeV_of_ne hr _
  | addReg _ _ | subReg _ _ | shr _ _ | subn _ _ | shl _ _ => cases h; exact State.readV_writeWithFlag_of_ne hr _ _
  | drw _ _ _ => cases h; rw [State.readV_setDrawn, if_neg (by simpa [writesV] using hr)]
  | loadRegs _ => cases h; exact State.readV_loadFirst_of_lt (by simpa [writesV] using hr)
  | ldVxK _ =>
    obtain ⟨-, rfl⟩ | ⟨_, -, rfl⟩ := execLdVxK_cases h
    · exact s.readV_jump _ r
    · exact State.readV_writeV_of_ne hr _
  | _ => exact exec_changes h .v (by simp [partsWritten]) r

theorem execLdVxK_readV_of_released {x : Reg} {s t : State} (hk : ∀ k, s.key.get k = false)
    (h : execLdVxK x s = .next t) (r : Reg) : t.readV r = s.readV r := by
  obtain ⟨-, rfl⟩ | ⟨j, hj, -⟩ := execLdVxK_cases h
  · exact s.readV_jump _ r
  · simp [hk j] at hj

/-- Settles O21: the table's registers, and Fx0A while it waits. -/
theorem registersWrittenAreThoseOfTheTable : Obligations.RegistersWrittenAreThoseOfTheTable :=
  ⟨fun _ _ _ _ => exec_readV_of_not_writesV, fun _ r _ _ hk h => execLdVxK_readV_of_released hk h r⟩

end Sys2Proof.Machine
end

section
/-!
The writers of the pc, each with its value and its condition (R37), and the range that the pc and the return addresses keep
(R142, R149).
-/

namespace Sys2Proof.Machine

/-! ### The writers of the pc (R37) -/

/-- RET: the top entry, or what the empty stack gives under the policy (R41, R142). -/
theorem execRet_pc {s t : State} (h : execRet s = .next t) :
    (∃ k : Fin 16, s.sp.val = k.val + 1 ∧ t.pc = s.stack.get k) ∨
    (s.sp = 0 ∧ t.pc = if s.params.stackPolicy = .reference then s.stack.get 0 else s.pc) := by
  obtain ⟨p, hp, rfl⟩ | ⟨f, hp, rfl⟩ := finish_map_cases h <;>
    obtain ⟨hsp, e⟩ | ⟨h0, hpol, e⟩ | ⟨h0, hpol, e⟩ := s.pop_cases <;> rw [e] at hp <;> cases hp
  · exact .inl ⟨⟨s.sp.val - 1, by omega⟩, by simp only; omega, rfl⟩
  · exact .inr ⟨h0, by simp [hpol]⟩
  · exact .inr ⟨h0, by simp [hpol]⟩

/-- CALL: the target, but the pc is left where the push raises (R40, R144). -/
theorem execCall_pc {nnn : Addr} {s t : State} (h : execCall nnn s = .next t) :
    if s.sp = 16 ∧ s.params.stackPolicy = .fault then t.pc = s.pc else t.pc.toNat = nnn.toNat := by
  obtain ⟨p, hp, rfl⟩ | ⟨f, hp, rfl⟩ := finish_map_cases h <;>
    obtain ⟨hsp, e⟩ | ⟨h16, hpol, e⟩ | ⟨h16, hpol, e⟩ := s.push_cases s.pc <;> rw [e] at hp <;> cases hp
  · have hne : s.sp ≠ 16 := fun h16 => by simp [h16] at hsp
    rw [if_neg (fun hc => hne hc.1)]
    exact zextAddr_toNat nnn
  · rw [if_neg (by simp [hpol])]
    exact zextAddr_toNat nnn
  · rw [if_pos ⟨h16, hpol⟩]
    rfl

/-- SKP and SKNP: a skip exactly when V[x] names a key whose cell is the one wanted (R260 to R262). -/
theorem keySkip_pc {s t : State} {v : Byte} {c : Bool → Bool} {want : Bool} (hc : ∀ down, c down = true ↔ down = want)
    (h : finish s ((s.keyAt v).map (fun down => s.skipIf (c down))) = .next t) :
    t.pc = if ∃ k : Fin 16, v.toNat = k.val ∧ s.key.get k = want then s.pc + 2 else s.pc := by
  obtain ⟨down, hk, rfl⟩ | ⟨f, hk, rfl⟩ := finish_map_cases h <;>
    obtain ⟨hv, e⟩ | ⟨hv, e⟩ := s.keyAt_cases v <;> rw [e] at hk <;> cases hk
  · have key_iff : (∃ k : Fin 16, v.toNat = k.val ∧ s.key.get k = want) ↔ s.key.get ⟨v.toNat, hv⟩ = want :=
      ⟨fun ⟨k, hk, hw⟩ => by rwa [show (⟨v.toNat, hv⟩ : Fin 16) = k from Fin.ext hk], fun hw => ⟨_, rfl, hw⟩⟩
    simp only [State.skipIf_pc, hc, key_iff]
  · rw [if_neg (by rintro ⟨k, hk, -⟩; omega)]
    rfl

theorem execLdVxK_pc {x : Reg} {s t : State} (h : execLdVxK x s = .next t) :
    t.pc = if ∀ k, s.key.get k = false then s.pc - 2 else s.pc := by
  obtain ⟨hall, rfl⟩ | ⟨j, hj, rfl⟩ := execLdVxK_cases h
  · rw [if_pos hall]; rfl
  · rw [if_neg (fun hall => by simp [hall j] at hj)]; rfl

/-- The sum of a jump with offset never wraps (R149). -/
theorem jumpTarget_toNat (nnn : Addr) (b : Byte) : (zextAddr nnn + zextByte b).toNat = nnn.toNat + b.toNat := by
  have := nnn.isLt
  have := b.isLt
  rw [BitVec.toNat_add, zextAddr_toNat, zextByte_toNat]
  omega

/-- Settles O23: each listed writer by the lemma about it, every other instruction by its frame. -/
theorem pcWritersAreThoseListed : Obligations.PcWritersAreThoseListed := by
  intro i s t h
  cases i with
  | jp nnn => cases h; exact zextAddr_toNat nnn
  | call _ => exact execCall_pc h
  | jpV0 nnn => cases h; exact jumpTarget_toNat nnn _
  | ret => exact execRet_pc h
  | seImm _ _ | sneImm _ _ | seReg _ _ | sneReg _ _ => cases h; simp
  | skp _ => exact keySkip_pc (c := id) (by simp) h
  | sknp _ => exact keySkip_pc (c := not) (by simp) h
  | ldVxK _ => exact execLdVxK_pc h
  | _ => exact exec_changes h .pc (by simp [partsWritten])

end Sys2Proof.Machine
end

section
/-!
The two invariants of a step (R30, R37, R70): memory stays canonical, and the pc and the return addresses stay in range. The
state after reset meets both.
-/

namespace Sys2Proof.Machine

/-! ### Canonical memory (log 8) -/

theorem State.push_mem {s t : State} {a : Word} (h : s.push a = .ok t) : t.mem = s.mem := by
  obtain ⟨_, e⟩ | ⟨-, -, e⟩ | ⟨-, -, e⟩ := s.push_cases a <;> rw [e] at h <;> cases h <;> rfl

theorem State.pop_mem {s : State} {p : Word × State} (h : s.pop = .ok p) : p.2.mem = s.mem := by
  obtain ⟨_, e⟩ | ⟨-, -, e⟩ | ⟨-, -, e⟩ := s.pop_cases <;> rw [e] at h <;> cases h <;> rfl

/-- SKP and SKNP leave the list of cells. -/
theorem keySkip_mem {s t : State} {v : Byte} {c : Bool → Bool}
    (h : finish s ((s.keyAt v).map (fun down => s.skipIf (c down))) = .next t) : t.mem = s.mem := by
  obtain ⟨_, -, rfl⟩ | ⟨_, -, rfl⟩ := finish_map_cases h
  · exact s.skipIf_mem _
  · rfl

/-- An instruction that does not write memory leaves the list of cells itself, which says more than its frame: that the bytes
read the same. -/
theorem exec_mem {i : Instr} {s t : State} (h : exec i s = .next t) (hi : .mem ∉ partsWritten i) : t.mem = s.mem := by
  cases i with
  | ldB _ | storeRegs _ => simp [partsWritten] at hi
  | ret =>
    obtain ⟨p, hp, rfl⟩ | ⟨_, -, rfl⟩ := finish_map_cases h
    · exact (p.2.jump_mem _).trans (State.pop_mem hp)
    · rfl
  | call _ =>
    obtain ⟨p, hp, rfl⟩ | ⟨_, -, rfl⟩ := finish_map_cases h
    · exact (p.jump_mem _).trans (State.push_mem hp)
    · rfl
  | skp _ => exact keySkip_mem (c := id) h
  | sknp _ => exact keySkip_mem (c := not) h
  | seImm _ _ | sneImm _ _ | seReg _ _ | sneReg _ _ => cases h; exact s.skipIf_mem _
  | loadRegs _ => cases h; exact s.loadFirst_mem _
  | ldVxK _ => obtain ⟨-, rfl⟩ | ⟨_, -, rfl⟩ := execLdVxK_cases h <;> rfl
  | _ => cases h; rfl

/-- The form depends on the font and the list of cells alone. -/
theorem State.memoryCanonical_congr {s t : State} (hp : t.params = s.params) (hm : t.mem = s.mem) (h : s.memoryCanonical) :
    t.memoryCanonical := by
  unfold State.memoryCanonical
  rwa [hp, hm]

theorem exec_memoryCanonical {i : Instr} {s t : State} (h : exec i s = .next t) (hs : s.memoryCanonical) :
    t.memoryCanonical := by
  cases i with
  | ldB _ | storeRegs _ => cases h; exact State.writeDataFrom_canonical _ hs 0
  | _ => exact State.memoryCanonical_congr (exec_params h) (exec_mem h (by simp [partsWritten])) hs

/-- `create` lists no cell, a load stays inside the 4096 bytes, and no other operation writes memory but by an instruction. -/
theorem keptByStep_memoryCanonical : KeptByStep State.memoryCanonical where
  create _ := Memory.wf_nil
  raise _ h := h
  load bs hlen h := Memory.wf_copy h bs 0x200 (by omega)
  timers _ _ _ h := h
  keys _ h := h
  fetch _ h := h
  instr _ _ h hs := exec_memoryCanonical h hs

/-- Settles O16. -/
theorem stepKeepsMemoryCanonical : Obligations.StepKeepsMemoryCanonical := fun _ _ hs h =>
  keptByStep_memoryCanonical.step h hs

/-! ### The return addresses in range (R39 to R42, R142) -/

/-- The part of `State.addressesInRange` that is about the stack. -/
def State.stackInRange (s : State) : Prop :=
  ∀ k : Fin 16, (s.stack.get k).toNat ≤ 0x1000 ∧ (k.val < s.sp.val → 0x002 ≤ (s.stack.get k).toNat)

theorem State.addressesInRange_iff (s : State) : s.addressesInRange ↔ s.pc.toNat ≤ 0x10FE ∧ s.stackInRange := Iff.rfl

/-- A stack with the same entries, no more of them occupied. -/
theorem State.stackInRange_of_sp_le {s t : State} (hs : s.stackInRange) (hstack : t.stack = s.stack)
    (hsp : t.sp.val ≤ s.sp.val) : t.stackInRange := by
  intro k
  rw [hstack]
  exact ⟨(hs k).1, fun hk => (hs k).2 (hk.trans_le hsp)⟩

theorem State.stackInRange.jump {s : State} (hs : s.stackInRange) (target : Word) : (s.jump target).stackInRange := hs

/-- A stack with a return address stored in an entry, and no other entry newly occupied. -/
theorem State.stackInRange_of_set {s t : State} (hs : s.stackInRange) {j : Fin 16} {a : Word} (hlo : 2 ≤ a.toNat)
    (hhi : a.toNat ≤ 0x1000) (hstack : t.stack = s.stack.set j.val a j.isLt)
    (hsp : ∀ k, k < t.sp.val → k = j.val ∨ k < s.sp.val) : t.stackInRange := by
  intro k
  rw [hstack, Vector.get_eq_getElem, Vector.getElem_set]
  by_cases hk : j.val = k.val
  · rw [if_pos hk]
    exact ⟨hhi, fun _ => hlo⟩
  · rw [if_neg hk]
    exact ⟨(hs k).1, fun h => (hs k).2 ((hsp k.val h).resolve_left (Ne.symm hk))⟩

/-- A push of a return address: onto the next entry, or onto entry 0 of a full stack under `reference` (R40). -/
theorem State.push_stackInRange {s t : State} {a : Word} (h : s.push a = .ok t) (hlo : 2 ≤ a.toNat)
    (hhi : a.toNat ≤ 0x1000) (hs : s.stackInRange) : t.stackInRange := by
  obtain ⟨hsp, e⟩ | ⟨-, -, e⟩ | ⟨-, -, e⟩ := s.push_cases a <;> rw [e] at h <;> cases h
  · exact State.stackInRange_of_set hs (j := ⟨s.sp.val, hsp⟩) hlo hhi rfl (fun k hk => by simp only at hk ⊢; omega)
  · exact State.stackInRange_of_set hs (j := 0) hlo hhi rfl (fun k hk => .inl (Nat.lt_one_iff.mp hk))

theorem State.pop_stackInRange {s : State} {p : Word × State} (h : s.pop = .ok p) (hs : s.stackInRange) :
    p.2.stackInRange := by
  obtain ⟨_, e⟩ | ⟨-, -, e⟩ | ⟨-, -, e⟩ := s.pop_cases <;> rw [e] at h <;> cases h
  · exact State.stackInRange_of_sp_le hs rfl (Nat.sub_le _ _)
  · exact hs

/-- The stack after an instruction: CALL pushes the pc that the fetch gave, RET pops, no other instruction's frame lists it. -/
theorem exec_stackInRange {i : Instr} {s t : State} (hlo : 2 ≤ s.pc.toNat) (hhi : s.pc.toNat ≤ 0x1000)
    (h : exec i s = .next t) (hs : s.stackInRange) : t.stackInRange := by
  cases i with
  | call _ =>
    obtain ⟨p, hp, rfl⟩ | ⟨_, -, rfl⟩ := finish_map_cases h
    · exact (State.push_stackInRange hp hlo hhi hs).jump _
    · exact hs
  | ret =>
    obtain ⟨p, hp, rfl⟩ | ⟨_, -, rfl⟩ := finish_map_cases h
    · exact (State.pop_stackInRange hp hs).jump _
    · exact hs
  | _ =>
    have hstack : t.stack = s.stack := exec_changes h .stack (by simp [partsWritten])
    have hsp : t.sp = s.sp := exec_changes h .sp (by simp [partsWritten])
    exact State.stackInRange_of_sp_le hs hstack (by rw [hsp])

/-! ### The pc in range (R37, R149) -/

/-- A skip or none, from a pc that a fetch gave. -/
theorem skippedPc_toNat_le {pc t : Word} {c : Prop} [Decidable c] (hpc : pc.toNat ≤ 0x1000)
    (h : t = if c then pc + 2 else pc) : t.toNat ≤ 0x10FE := by
  have h2 : (pc + 2).toNat = (pc.toNat + 2) % 65536 := BitVec.toNat_add pc 2
  subst h
  split <;> omega

/-- The pc after an instruction, from what each writer gives it: 0x10FE is the largest target of Bnnn, every other value is at
most 0x1002. -/
theorem exec_pc_le {i : Instr} {s t : State} (hlo : 2 ≤ s.pc.toNat) (hhi : s.pc.toNat ≤ 0x1000)
    (h : exec i s = .next t) (hs : s.stackInRange) : t.pc.toNat ≤ 0x10FE := by
  have hpc := pcWritersAreThoseListed i s t h
  cases i with
  | jp nnn =>
    have hpc : t.pc.toNat = nnn.toNat := hpc
    have := nnn.isLt
    omega
  | call nnn =>
    have := nnn.isLt
    simp only at hpc
    split at hpc
    · rw [hpc]; omega
    · omega
  | jpV0 nnn =>
    have hpc : t.pc.toNat = nnn.toNat + (s.readV 0).toNat := hpc
    have := nnn.isLt
    have := (s.readV 0).isLt
    omega
  | ret =>
    have hentry (k : Fin 16) := (hs k).1
    obtain ⟨k, -, hpc⟩ | ⟨-, hpc⟩ := hpc
    · have := hentry k
      rw [hpc]; omega
    · have := hentry 0
      rw [hpc]; split <;> omega
  | seImm _ _ | seReg _ _ | skp _ | sknp _ => exact skippedPc_toNat_le hhi hpc
  | sneImm _ _ | sneReg _ _ => exact skippedPc_toNat_le hhi (hpc.trans (ite_not ..).symm)
  | ldVxK _ =>
    have hback : (s.pc - 2).toNat = s.pc.toNat - 2 := BitVec.toNat_sub_of_le (BitVec.le_def.mpr hlo)
    simp only at hpc
    split at hpc <;> rw [hpc] <;> omega
  | _ =>
    have hpc : t.pc = s.pc := hpc
    rw [hpc]; omega

/-! ### Both, in every step -/

theorem State.reset_addressesInRange : State.reset.addressesInRange := by
  rw [State.addressesInRange_iff, State.stackInRange]
  decide

/-- `create` gives the pc and the stack their values after reset. -/
theorem keptByStep_addressesInRange : KeptByStep State.addressesInRange where
  create _ := State.reset_addressesInRange
  raise _ h := h
  load _ _ h := h
  timers _ _ _ h := h
  keys _ h := h
  fetch hpc h := ⟨by rw [fetchedPc_toNat hpc]; omega, h.2⟩
  instr hlo hhi h hs := ⟨exec_pc_le hlo hhi h hs.2, exec_stackInRange hlo hhi h hs.2⟩

/-- Settles O17: an instruction runs only after a fetch, so the pc it skips from or pushes is at most 0x1000. -/
theorem stepKeepsAddressesInRange : Obligations.StepKeepsAddressesInRange := fun _ _ hs h =>
  keptByStep_addressesInRange.step h hs

/-- Settles O18: the state after reset lists no cell, and its stack is empty. -/
theorem resetMeetsTheInvariants : Obligations.ResetMeetsTheInvariants := ⟨Memory.wf_nil, State.reset_addressesInRange⟩

end Sys2Proof.Machine
end

section
/-!
No instruction reads ST (R43): each shared operation does the same whatever ST holds, and so does each instruction.
-/

namespace Sys2Proof.Machine

/-! ### The shared operations commute with a write of ST -/

theorem State.writeDataFrom_writeST (b : Byte) (bs : List Byte) : ∀ (s : State) (k : Nat),
    (s.writeST b).writeDataFrom k bs = (s.writeDataFrom k bs).writeST b := by
  induction bs with
  | nil => intros; rfl
  | cons c bs ih => intro s k; exact ih (s.writeData k c) (k + 1)

theorem State.loadFirst_writeST (s : State) (b : Byte) (n : Nat) :
    (s.writeST b).loadFirst n = (s.loadFirst n).writeST b := by
  induction n with
  | zero => rfl
  | succ n ih => rw [State.loadFirst, ih]; rfl

theorem State.drawRows_writeST (s : State) (b ox oy : Byte) (n : Nat) :
    (s.writeST b).drawRows ox oy n = s.drawRows ox oy n := by
  induction n with
  | zero => rfl
  | succ n ih => rw [State.drawRows, ih]; rfl

theorem State.pressedFrom_writeST (s : State) (b : Byte) (fuel : Nat) : ∀ k,
    (s.writeST b).pressedFrom fuel k = s.pressedFrom fuel k := by
  induction fuel with
  | zero => intro; rfl
  | succ fuel ih => intro k; rw [State.pressedFrom, ih]; rfl

theorem State.lowestKey_writeST (s : State) (b : Byte) : (s.writeST b).lowestKey = s.lowestKey :=
  s.pressedFrom_writeST b 16 0

theorem State.skipIf_writeST (s : State) (b : Byte) (c : Bool) : (s.writeST b).skipIf c = (s.skipIf c).writeST b := by
  cases c <;> rfl

theorem State.push_writeST (s : State) (b : Byte) (a : Word) : (s.writeST b).push a = (s.push a).map (·.writeST b) := by
  obtain ⟨hsp, e⟩ | ⟨hsp, hpol, e⟩ | ⟨hsp, hpol, e⟩ := s.push_cases a <;> rw [e]
  · exact dif_pos hsp
  · simp [State.push, hsp, hpol, Except.map]
  · simp [State.push, hsp, hpol, Except.map, State.writeST]

theorem State.pop_writeST (s : State) (b : Byte) :
    (s.writeST b).pop = s.pop.map (fun p => (p.1, p.2.writeST b)) := by
  obtain ⟨hsp, e⟩ | ⟨hsp, hpol, e⟩ | ⟨hsp, hpol, e⟩ := s.pop_cases <;> rw [e]
  · exact dif_pos hsp
  · simp [State.pop, hsp, hpol, Except.map]
  · simp [State.pop, hsp, hpol, Except.map, State.writeST]

/-! ### Every instruction -/

/-- SKP and SKNP: the latch and V[x] decide, not ST. -/
theorem keySkip_writeST {s t : State} {v b : Byte} {c : Bool → Bool}
    (h : finish s ((s.keyAt v).map (fun down => s.skipIf (c down))) = .next t) :
    finish (s.writeST b) (((s.writeST b).keyAt v).map (fun down => (s.writeST b).skipIf (c down))) =
      .next (t.writeST b) := by
  have hkey : (s.writeST b).keyAt v = s.keyAt v := rfl
  obtain ⟨down, hk, rfl⟩ | ⟨f, hk, rfl⟩ := finish_map_cases h <;> rw [hkey, hk]
  · exact congrArg Host.Outcome.next (s.skipIf_writeST b _)
  · rfl

/-- With another value in ST, an instruction other than Fx18 answers the same state with that value in ST. -/
theorem exec_writeST {i : Instr} {s t : State} {b : Byte} (hi : ∀ x, i ≠ .ldSTVx x) (h : exec i s = .next t) :
    exec i (s.writeST b) = .next (t.writeST b) := by
  cases i with
  | ldSTVx x => exact absurd rfl (hi x)
  | ret =>
    obtain ⟨p, hp, rfl⟩ | ⟨f, hp, rfl⟩ := finish_map_cases h <;> simp only [exec, execRet, State.pop_writeST, hp] <;> rfl
  | call _ =>
    have hpush := s.push_writeST b s.pc
    obtain ⟨p, hp, rfl⟩ | ⟨f, hp, rfl⟩ := finish_map_cases h <;>
      simp only [exec, execCall, State.writeST_pc, hpush, hp] <;> rfl
  | skp _ => exact keySkip_writeST (c := id) h
  | sknp _ => exact keySkip_writeST (c := not) h
  | seImm _ _ | sneImm _ _ | seReg _ _ | sneReg _ _ => cases h; exact congrArg Host.Outcome.next (s.skipIf_writeST b _)
  | ldB _ | storeRegs _ => cases h; exact congrArg Host.Outcome.next (State.writeDataFrom_writeST b _ s 0)
  | loadRegs _ => cases h; exact congrArg Host.Outcome.next (s.loadFirst_writeST b _)
  | drw x y n =>
    cases h
    exact congrArg (fun d => Host.Outcome.next ((s.writeST b).setDrawn d)) (s.drawRows_writeST b _ _ n.val)
  | ldVxK _ =>
    have hk := s.lowestKey_writeST b
    simp only [exec, execLdVxK, hk] at h ⊢
    split at h <;> cases h <;> rfl
  | _ => cases h; rfl

/-- Settles O24: Fx18 overwrites ST, and every other instruction keeps it and reads it nowhere. -/
theorem noInstructionReadsTheSoundTimer : Obligations.NoInstructionReadsTheSoundTimer := by
  intro i s t b h
  by_cases hi : ∃ x, i = .ldSTVx x
  · obtain ⟨x, rfl⟩ := hi
    cases h
    rw [if_pos ⟨x, rfl⟩]
    rfl
  · rw [if_neg hi]
    exact exec_writeST (not_exists.mp hi) h

end Sys2Proof.Machine
end

section
/-!
The values that `create` gives (R52, R340), and those of the state after reset, which is what `create` leaves of it.
-/

namespace Sys2Proof.Machine

theorem State.reset_create : State.reset.create = State.reset := rfl

theorem State.create_readV (s : State) (r : Reg) : s.create.readV r = 0 := Vector.getElem_replicate ..

theorem State.create_stack_get (s : State) (k : Fin 16) : s.create.stack.get k = 0 := Vector.getElem_replicate ..

theorem State.create_key_get (s : State) (k : Fin 16) : s.create.key.get k = false := Vector.getElem_replicate ..

theorem State.create_fbCell (s : State) (px : Fin 64) (py : Fin 32) : fbCell s.create.fb px py = false :=
  fbCell_blank px py

/-- Memory lists no cell after `create`, so every address reads as unlisted (R71). -/
theorem State.create_readByte (s : State) (a : Addr) : s.create.readByte a = unlistedByte s.params.font a.toNat := rfl

theorem State.create_readByte_font (s : State) (a : Addr) (h : a.toNat < 80) :
    s.create.readByte a = s.params.font.get ⟨a.toNat, h⟩ := by
  rw [State.create_readByte, unlistedByte, dif_pos h]

theorem State.create_readByte_above (s : State) (a : Addr) (h : 80 ≤ a.toNat) : s.create.readByte a = 0 := by
  rw [State.create_readByte, unlistedByte, dif_neg (by omega)]

/-- Settles O57: part by part. -/
theorem createGivesTheFreshState : Obligations.CreateGivesTheFreshState := fun s =>
  ⟨s.create, rfl, s.create_readV, rfl, rfl, s.create_stack_get, rfl, rfl, rfl, s.create_fbCell, s.create_key_get, rfl, rfl,
    s.create_readByte_font, s.create_readByte_above, s.create_params⟩

/-- Settles O58: the values of `create`, and the first glyph of the default font. -/
theorem resetValues : Obligations.ResetValues := by
  unfold Obligations.ResetValues
  rw [← State.reset_create]
  exact ⟨State.create_readV _, rfl, rfl, State.create_stack_get _, rfl, rfl, rfl, State.create_key_get _,
    State.create_fbCell _, rfl, rfl, rfl, State.create_readByte_above _, by decide⟩

end Sys2Proof.Machine
end

section
/-!
Memory as fetch and execution see it (20_memory.md): a list of byte writes read back (R78, R80), the fetch below and past the
end of memory (R74, R75), and a word stored by Fx55 and then fetched (R83).
-/

namespace Sys2Proof.Machine

/-! ### The fetch (R74, R75) -/

/-- The word at an address is the byte there and the byte after it, big endian (R74). -/
theorem State.wordAt_toNat (s : State) {n : Nat} {a b : Addr} (ha : a.toNat = n) (hb : b.toNat = n + 1) :
    (s.wordAt n).toNat = (s.readByte a).toNat * 256 + (s.readByte b).toNat := by
  rw [State.wordAt, joinBytes_toNat, ← hb, ← ha, BitVec.ofNat_toNat, BitVec.ofNat_toNat, BitVec.setWidth_eq,
    BitVec.setWidth_eq]

theorem State.fetch_of_lt {s : State} (h : s.pc.toNat + 1 < 4096) :
    s.fetch = .ok (s.wordAt s.pc.toNat, { s with pc := s.pc + 2 }) :=
  (s.fetch_cases.resolve_left fun hout => by omega).2

/-- Settles O9: the word at pc is its two bytes, wherever pc is below 0xFFF. -/
theorem fetchIsBigEndianAndAdvances : Obligations.FetchIsBigEndianAndAdvances := fun s h =>
  ⟨s.wordAt s.pc.toNat, { s with pc := s.pc + 2 }, State.fetch_of_lt h, rfl, fetchedPc_toNat h,
    fun _ _ => s.wordAt_toNat⟩

/-- Settles O10: of all that a cycle can do, a running block with pc + 1 from 4096 up leaves the failing fetch alone. -/
theorem fetchPastTheEndHalts : Obligations.FetchPastTheEndHalts := by
  intro s hrun hout
  obtain ⟨f, hhalt, -⟩ | ⟨-, -, hc⟩ | ⟨-, hin, -⟩ | ⟨-, hin, -⟩ := s.cycle_cases
  · simp [hrun] at hhalt
  · exact hc
  · omega
  · omega

/-! ### Stores read back (R78, R80, R83) -/

/-- Settles O44, by induction on the writes from the last one backwards: it is the byte read, or it is at another address and
the writes before it decide. -/
theorem readGivesTheLastWrite : Obligations.ReadGivesTheLastWrite := by
  intro s ws a
  induction ws using List.reverseRecOn with
  | nil => rfl
  | append_singleton ws w ih =>
    rw [List.foldl_concat, State.readByte_writeByte, ih, List.reverse_concat, List.find?_cons]
    by_cases h : a = w.1
    · simp [h]
    · simp [h, beq_false_of_ne (Ne.symm h)]

/-- What Fx55 stores: V[k] at I + k, for k up to x (R214). -/
theorem exec_storeRegs_readByte {s t : State} {x k : Reg} (h : exec (.storeRegs x) s = .next t) (hk : k ≤ x) :
    t.readByte (s.dataAddr k.val) = s.readV k := by
  cases h
  have hlen := s.length_regsUpTo x
  have hkx : k.val < (s.regsUpTo x).length := by rw [hlen]; exact Nat.lt_succ_of_le hk
  have hroom : 0 + (s.regsUpTo x).length ≤ 4096 := by omega
  obtain ⟨hstored, -⟩ := State.readByte_writeDataFrom (s.regsUpTo x) s 0 (s.dataAddr k.val) hroom
  rw [hstored k.val hkx (by rw [Nat.zero_add]), State.getElem_regsUpTo]

theorem exec_storeRegs_pc {s t : State} {x : Reg} (h : exec (.storeRegs x) s = .next t) : t.pc = s.pc :=
  exec_changes h .pc (by simp [partsWritten])

/-- Settles O45: Fx55 keeps pc, so the next fetch reads the two addresses it stored at. -/
theorem storesAreSeenByFetch : Obligations.StoresAreSeenByFetch := by
  intro s t x j k h hj hk hpc hhi hlo
  have hpc' : t.pc.toNat = s.pc.toNat := by rw [exec_storeRegs_pc h]
  refine ⟨_, _, State.fetch_of_lt (by omega), ?_⟩
  rw [t.wordAt_toNat (hhi.trans hpc'.symm) (by rw [hlo, hpc']), exec_storeRegs_readByte h hj,
    exec_storeRegs_readByte h hk]

end Sys2Proof.Machine
end

section
/-!
The encoding (30_encoding.md): the encoder and the decoder are inverse to each other on the legal words (R101 to R105), the
decoder agrees with the masks of the opcode map and with the list of illegal subspaces (R105, R106), and a cycle or a step runs
what the word at pc decodes to (R106, R108).
-/

namespace Sys2Proof.Machine

/-! ### Decoding an encoding (R102, R104) -/

/-- Settles O1, by the format of the instruction's word: its fields are the operands and the function code that the decoder
looks at. -/
theorem decodeOfEncodeIsTheInstruction : Obligations.DecodeOfEncodeIsTheInstruction := by
  intro i
  cases i with
  | nop | cls | ret => rfl
  | jp _ | call _ | ldI _ | jpV0 _ => simp [encode, decode, formatNNN_fields]
  | seImm _ _ | sneImm _ _ | ldImm _ _ | addImm _ _ | rnd _ _ => simp [encode, decode, formatXKK_fields]
  | seReg _ _ | sneReg _ _ | drw _ _ _ => simp [encode, decode, formatXYN_fields]
  | ldReg _ _ | orReg _ _ | andReg _ _ | xorReg _ _ | addReg _ _ | subReg _ _ | shr _ _ | subn _ _ | shl _ _ =>
    simp [encode, decode, decode8, formatXYN_fields]
  | skp _ | sknp _ => simp [encode, decode, decodeE, formatXKK_fields]
  | ldVxDT _ | ldVxK _ | ldDTVx _ | ldSTVx _ | addI _ | ldF _ | ldB _ | storeRegs _ | loadRegs _ =>
    simp [encode, decode, decodeF, formatXKK_fields]

/-! ### A word put together again from its fields (R101, R102) -/

section
variable {w : Word} {op : BitVec 4} (hop : (fieldMsb w).toNat = op.toNat)
include hop

theorem formatNNN_of_fields : formatNNN op (fieldNNN w) = w := by
  rw [fieldMsb_toNat] at hop
  apply BitVec.eq_of_toNat_eq
  rw [formatNNN_toNat, fieldNNN_toNat]
  omega

theorem formatXKK_of_fields {kk : Byte} (hkk : (fieldKK w).toNat = kk.toNat) : formatXKK op (fieldX w) kk = w := by
  rw [fieldMsb_toNat] at hop
  rw [fieldKK_toNat] at hkk
  apply BitVec.eq_of_toNat_eq
  rw [formatXKK_toNat, fieldX_val]
  omega

theorem formatXYN_of_fields {n : BitVec 4} (hn : (fieldN w).toNat = n.toNat) :
    formatXYN op (fieldX w) (fieldY w) n = w := by
  rw [fieldMsb_toNat] at hop
  rw [fieldN_toNat] at hn
  apply BitVec.eq_of_toNat_eq
  rw [formatXYN_toNat, fieldX_val, fieldY_val]
  omega

end

/-! ### Everything the decoder can answer (R104, R106) -/

/-- What the decoder's answer on `w` says of it: an instruction that encodes to `w`, or the error that names `w`, which is then
in an illegal subspace. -/
def AnswersFor (w : Word) : Except DecodeError Instr → Prop
  | .ok i => encode i = w
  | .error e => e = .unimplemented w ∧ illegalSubspace w.toNat

theorem decode0_answers {w : Word} (hop : (fieldMsb w).toNat = 0) : AnswersFor w (decode0 w) := by
  rw [fieldMsb_toNat] at hop
  unfold decode0
  split_ifs with hnop hcls hret
  · exact hnop.symm
  · exact hcls.symm
  · exact hret.symm
  · refine ⟨rfl, ?_⟩
    simp only [← BitVec.toNat_inj, BitVec.reduceToNat] at hnop hcls hret
    unfold illegalSubspace
    omega

/-- Major opcode 8; in the default arm the function code is none of the nine. -/
theorem decode8_answers {w : Word} (hop : (fieldMsb w).toNat = 8) : AnswersFor w (decode8 w) := by
  unfold decode8
  split
  case h_10 =>
    refine ⟨rfl, ?_⟩
    simp only [fieldMsb_toNat, fieldN_toNat, imp_false] at *
    simp only [illegalSubspace, List.mem_cons, List.not_mem_nil, or_false]
    omega
  all_goals exact formatXYN_of_fields (op := 8) hop ‹_›

/-- Major opcode E; in the default arm the function code is neither of the two. -/
theorem decodeE_answers {w : Word} (hop : (fieldMsb w).toNat = 0xE) : AnswersFor w (decodeE w) := by
  unfold decodeE
  split
  case h_3 =>
    refine ⟨rfl, ?_⟩
    simp only [fieldMsb_toNat, fieldKK_toNat, imp_false] at *
    simp only [illegalSubspace, List.mem_cons, List.not_mem_nil, or_false]
    omega
  all_goals exact formatXKK_of_fields (op := 0xE) hop ‹_›

/-- Major opcode F; in the default arm the function code is none of the nine. -/
theorem decodeF_answers {w : Word} (hop : (fieldMsb w).toNat = 0xF) : AnswersFor w (decodeF w) := by
  unfold decodeF
  split
  case h_10 =>
    refine ⟨rfl, ?_⟩
    simp only [fieldMsb_toNat, fieldKK_toNat, imp_false] at *
    simp only [illegalSubspace, List.mem_cons, List.not_mem_nil, or_false]
    omega
  all_goals exact formatXKK_of_fields (op := 0xF) hop ‹_›

/-- Major opcodes 5 and 9: one function code, 0. -/
theorem functionCodeZero_answers {w : Word} {op : BitVec 4} {mk : Reg → Reg → Instr}
    (hmk : ∀ x y, encode (mk x y) = formatXYN op x y 0) (h59 : op.toNat = 5 ∨ op.toNat = 9)
    (hop : (fieldMsb w).toNat = op.toNat) :
    AnswersFor w (if fieldN w = 0 then .ok (mk (fieldX w) (fieldY w)) else .error (.unimplemented w)) := by
  split_ifs with hn
  · exact (hmk _ _).trans (formatXYN_of_fields hop (congrArg BitVec.toNat hn))
  · refine ⟨rfl, ?_⟩
    simp only [← BitVec.toNat_inj, BitVec.reduceToNat, fieldN_toNat] at hn
    rw [fieldMsb_toNat] at hop
    unfold illegalSubspace
    omega

/-- Every major opcode: its format puts the word together again from its fields, or its own decoder answers. -/
theorem decode_answers (w : Word) : AnswersFor w (decode w) := by
  unfold decode
  split
  case h_1 hop => exact decode0_answers hop
  case h_2 hop => exact formatNNN_of_fields (op := 0x1) hop
  case h_3 hop => exact formatNNN_of_fields (op := 0x2) hop
  case h_4 hop => exact formatXKK_of_fields (op := 0x3) hop rfl
  case h_5 hop => exact formatXKK_of_fields (op := 0x4) hop rfl
  case h_6 hop => exact functionCodeZero_answers (op := 0x5) (fun _ _ => rfl) (.inl rfl) hop
  case h_7 hop => exact formatXKK_of_fields (op := 0x6) hop rfl
  case h_8 hop => exact formatXKK_of_fields (op := 0x7) hop rfl
  case h_9 hop => exact decode8_answers hop
  case h_10 hop => exact functionCodeZero_answers (op := 0x9) (fun _ _ => rfl) (.inr rfl) hop
  case h_11 hop => exact formatNNN_of_fields (op := 0xA) hop
  case h_12 hop => exact formatNNN_of_fields (op := 0xB) hop
  case h_13 hop => exact formatXKK_of_fields (op := 0xC) hop rfl
  case h_14 hop => exact formatXYN_of_fields (op := 0xD) hop rfl
  case h_15 hop => exact decodeE_answers hop
  case h_16 =>
    refine decodeF_answers ?_
    have := (fieldMsb w).isLt
    simp only [imp_false] at *
    omega

/-- Settles O2: the answer on a word is an instruction that encodes to it, or the error. -/
theorem encodeOfDecodeIsTheWord : Obligations.EncodeOfDecodeIsTheWord := by
  intro w i h
  show AnswersFor w (.ok i)
  exact h ▸ decode_answers w

/-! ### The rows of the opcode map (R105) -/

theorem row_mem_opcodeMap (i : Instr) : i.row ∈ opcodeMap := by
  cases i <;> simp [Instr.row, opcodeMap]

/-- Two rows that some word could both select, as their values agree where both masks look, are one row. -/
theorem opcodeMap_disjoint : ∀ r ∈ opcodeMap, ∀ q ∈ opcodeMap, r.value &&& q.mask = q.value &&& r.mask → r = q := by
  decide

theorem eq_of_selects {w : Word} {r q : OpcodeRow} (hr : r ∈ opcodeMap) (hq : q ∈ opcodeMap)
    (hrw : r.selects w = true) (hqw : q.selects w = true) : r = q := by
  apply opcodeMap_disjoint r hr q hq
  rw [← beq_iff_eq.mp hrw, ← beq_iff_eq.mp hqw, BitVec.and_assoc, BitVec.and_assoc, BitVec.and_comm r.mask]

theorem legalWord_iff {w : Word} : legalWord w = true ↔ ∃ r ∈ opcodeMap, r.selects w = true := List.any_eq_true

theorem legalWord_encode (i : Instr) : legalWord (encode i) = true :=
  legalWord_iff.mpr ⟨i.row, row_mem_opcodeMap i, Laws.encode_selects_row i⟩

/-- The number that each row's mask leaves of the word is its major opcode, with its function code where the row has one; no
subspace of R106 has these. -/
theorem not_illegalSubspace_of_legalWord {w : Word} (h : legalWord w = true) : ¬ illegalSubspace w.toNat := by
  simp only [legalWord, opcodeMap, OpcodeRow.selects, List.any_append, List.any_cons, List.any_nil, Bool.or_eq_true,
    Bool.false_eq_true, or_false, beq_iff_eq, ← BitVec.toNat_inj, maskF000_toNat, maskF00F_toNat, maskF0FF_toNat, maskFFFF,
    BitVec.reduceToNat] at h
  simp only [illegalSubspace, List.mem_cons, List.not_mem_nil, or_false]
  omega

/-! ### Decoder, opcode map and illegal subspaces agree (R104 to R106) -/

/-- Both ways a word can go: legal, the encoding of what it decodes to; or illegal, in a subspace of R106 and answered with the
error that names it. -/
theorem decode_cases (w : Word) :
    (legalWord w = true ∧ ¬ illegalSubspace w.toNat ∧ ∃ i, decode w = .ok i ∧ encode i = w) ∨
    (legalWord w = false ∧ illegalSubspace w.toNat ∧ decode w = .error (.unimplemented w)) := by
  have hw := decode_answers w
  cases hd : decode w with
  | ok i =>
    have hi : encode i = w := by rwa [hd] at hw
    have hlegal : legalWord w = true := hi ▸ legalWord_encode i
    exact .inl ⟨hlegal, not_illegalSubspace_of_legalWord hlegal, i, rfl, hi⟩
  | error e =>
    obtain ⟨rfl, hlisted⟩ : e = .unimplemented w ∧ illegalSubspace w.toNat := by rwa [hd] at hw
    have hlegal : legalWord w = false :=
      Bool.eq_false_iff.mpr fun h => not_illegalSubspace_of_legalWord h hlisted
    exact .inr ⟨hlegal, hlisted, rfl⟩

theorem selects_iff_eq_row {w : Word} {i : Instr} {r : OpcodeRow} (h : decode w = .ok i) (hr : r ∈ opcodeMap) :
    r.selects w = true ↔ r = i.row := by
  have hi : i.row.selects w = true := encodeOfDecodeIsTheWord w i h ▸ Laws.encode_selects_row i
  exact ⟨fun hrw => eq_of_selects hr (row_mem_opcodeMap i) hrw hi, fun he => he ▸ hi⟩

theorem exists_decode_iff_legalWord (w : Word) : (∃ i, decode w = .ok i) ↔ legalWord w = true := by
  obtain ⟨hlegal, -, i, hd, -⟩ | ⟨hlegal, -, hd⟩ := decode_cases w
  · exact iff_of_true ⟨i, hd⟩ hlegal
  · simp [hlegal, hd]

theorem decode_of_not_legalWord {w : Word} (h : legalWord w = false) : decode w = .error (.unimplemented w) := by
  obtain ⟨hlegal, -⟩ | ⟨-, -, hd⟩ := decode_cases w
  · simp [h] at hlegal
  · exact hd

/-- Settles O3: a word that decodes is an encoding, which selects its instruction's row, and the rows are disjoint. -/
theorem decoderFollowsOpcodeMap : Obligations.DecoderFollowsOpcodeMap := fun w =>
  ⟨exists_decode_iff_legalWord w, fun i h => ⟨row_mem_opcodeMap i, fun _ => selects_iff_eq_row h⟩, decode_of_not_legalWord⟩

/-- Settles O4: the decoder's error comes with an illegal subspace, and a word that decodes is in none. -/
theorem illegalWordsAreTheListedSubspaces : Obligations.IllegalWordsAreTheListedSubspaces := by
  intro w
  obtain ⟨-, hlisted, i, hd, -⟩ | ⟨-, hlisted, hd⟩ := decode_cases w
  · simp [hlisted, hd]
  · exact iff_of_true hd hlisted

/-- Settles O5, by evaluation of the decoder on each word. -/
theorem wordsOfTheSpecDecode : Obligations.WordsOfTheSpecDecode := by
  unfold Obligations.WordsOfTheSpecDecode
  decide

/-! ### The word at pc runs (R106, R108) -/

/-- Settles O6: of all that a cycle can do, a running block whose word decodes leaves the instruction alone. -/
theorem cycleRunsDecodedInstruction : Obligations.CycleRunsDecodedInstruction := by
  intro s i hrun hin hd
  obtain ⟨f, hhalt, -⟩ | ⟨-, hout, -⟩ | ⟨-, -, ⟨e, he⟩, -⟩ | ⟨-, -, j, hj, hc⟩ := s.cycle_cases
  · simp [hrun] at hhalt
  · omega
  · simp [hd] at he
  · obtain rfl : i = j := by simpa [hd] using hj
    exact hc

/-- A step whose next operation is a cycle is that cycle, on the state with the operation taken off the schedule. -/
theorem step_of_nextOp_cycle {s : State} (h : s.nextOp = .cycle) : step s = s.takeOp.cycle := by
  rw [step, h, operate]

/-- Settles O7: the cycle of O6, on the state with the operation taken off the schedule. -/
theorem stepRunsDecodedInstruction : Obligations.StepRunsDecodedInstruction := fun s i hop hrun hin hd =>
  (step_of_nextOp_cycle hop).trans (cycleRunsDecodedInstruction s.takeOp i hrun hin hd)

/-- Settles O11: of all that a cycle can do, an illegal word leaves the failing decode alone. -/
theorem illegalWordHalts : Obligations.IllegalWordHalts := by
  intro s hrun hin hill
  have hd := decode_of_not_legalWord hill
  obtain ⟨f, hhalt, -⟩ | ⟨-, hout, -⟩ | ⟨-, -, -, hc⟩ | ⟨-, -, i, hi, -⟩ := s.cycle_cases
  · simp [hrun] at hhalt
  · omega
  · exact hc
  · simp [hd] at hi

end Sys2Proof.Machine
end

section
/-!
Control flow (40_control_flow.md): each of its instructions with its result, its frame and its encoding (R141 to R149), and the
slide through zero memory up to its end (R141, R344).
-/

namespace Sys2Proof.Machine

/-! ### What the control-flow instructions share -/

/-- Every encoding is that of its row of the opcode map, and decodes (R104, R105). -/
theorem encodedAs_row (i : Instr) : EncodedAs i i.row.mask i.row.value :=
  ⟨beq_iff_eq.mp (Laws.encode_selects_row i), decodeOfEncodeIsTheInstruction i⟩

theorem State.fetch_of_ge {s : State} (h : 4096 ≤ s.pc.toNat + 1) : s.fetch = .error (.outOfBounds s.pc) :=
  (s.fetch_cases.resolve_right fun hin => by omega).2

/-- A stack entry read after a write of an entry. -/
theorem stack_get_set (stack : Vector Word 16) (j k : Fin 16) (a : Word) :
    (stack.set j.val a j.isLt).get k = if k = j then a else stack.get k := by
  simp only [Vector.get_eq_getElem, Vector.getElem_set, Fin.ext_iff, eq_comm]

/-- RET with an address popped (R142): the frames of the pop and of the jump, one after the other. -/
theorem execRet_of_pop {s t : State} {a : Word} (h : s.pop = .ok (a, t)) :
    exec .ret s = .next (t.jump a) ∧ ChangesOnly [.pc, .sp] s (t.jump a) :=
  ⟨by simp only [exec, execRet, h, Except.map, finish],
    ((State.pop_changes h).mono (by decide)).trans ((t.jump_changes a).mono (by decide))⟩

/-- CALL with the return address pushed (R144): the frames of the push and of the jump, one after the other. -/
theorem execCall_of_push {s t : State} (nnn : Addr) (h : s.push s.pc = .ok t) :
    exec (.call nnn) s = .next (t.jump (zextAddr nnn)) ∧
      ChangesOnly [.pc, .stack, .sp] s (t.jump (zextAddr nnn)) :=
  ⟨by simp only [exec, execCall, h, Except.map, finish],
    ((State.push_changes h).mono (by decide)).trans ((t.jump_changes _).mono (by decide))⟩

/-! ### NOP (R141) -/

/-- Settles O25: a word that decodes to NOP is NOP's encoding. -/
theorem nopChangesNothing : Obligations.NopChangesNothing :=
  ⟨fun _ => rfl, encodedAs_row .nop, fun w h => (encodeOfDecodeIsTheWord w .nop h).symm⟩

/-- Where memory reads zero from the pc up, a fetch gives the word 0x0000. -/
theorem State.wordAt_pc_of_zero {s : State} (hz : ∀ a : Addr, s.pc.toNat ≤ a.toNat → s.readByte a = 0)
    (hpc : s.pc.toNat + 1 < 4096) : s.wordAt s.pc.toNat = 0x0000 := by
  have zero_from (n : Nat) (hlo : s.pc.toNat ≤ n) (hhi : n < 4096) : s.readByte (BitVec.ofNat 12 n) = 0 :=
    hz _ (by rwa [BitVec.toNat_ofNat, Nat.mod_eq_of_lt hhi])
  rw [State.wordAt, zero_from _ le_rfl (by omega), zero_from _ (by omega) hpc]
  rfl

/-- One step of the slide: the cycle fetches a NOP, so it advances the pc and does nothing else. -/
theorem step_through_zero {s : State} (hrun : s.status = .running) (hsched : s.schedule = [])
    (hz : ∀ a : Addr, s.pc.toNat ≤ a.toNat → s.readByte a = 0) (hpc : s.pc.toNat + 1 < 4096) :
    step s = .next (s.jump (s.pc + 2)) := by
  have hd : decode (s.wordAt s.pc.toNat) = .ok .nop := by
    rw [State.wordAt_pc_of_zero hz hpc]
    rfl
  rw [step_of_empty hsched, cycleRunsDecodedInstruction s .nop hrun hpc hd]
  rfl

/-- The slide: k steps through zero memory leave the rest of the run to the state with pc advanced by 2k. -/
theorem run_through_zero (n k : Nat) : ∀ {s : State}, s.status = .running → s.schedule = [] →
    (∀ a : Addr, s.pc.toNat ≤ a.toNat → s.readByte a = 0) → s.pc.toNat + 2 * k ≤ 4096 →
    Sys2Proof.core.run (k + n) s = Sys2Proof.core.run n (s.jump (s.pc + BitVec.ofNat 16 (2 * k))) := by
  induction k with
  | zero =>
    intro s _ _ _ _
    rw [Nat.zero_add, Nat.mul_zero, BitVec.add_zero]
    rfl
  | succ k ih =>
    intro s hrun hsched hz hk
    have hpc : s.pc.toNat + 1 < 4096 := by omega
    have hnext : (s.jump (s.pc + 2)).pc.toNat = s.pc.toNat + 2 := fetchedPc_toNat hpc
    have hsum : s.pc + 2 + BitVec.ofNat 16 (2 * k) = s.pc + BitVec.ofNat 16 (2 * (k + 1)) := by
      rw [BitVec.add_assoc, Nat.mul_succ, Nat.add_comm (2 * k), BitVec.ofNat_add]
      rfl
    calc Sys2Proof.core.run (k + 1 + n) s
        = Sys2Proof.core.run (k + n) (s.jump (s.pc + 2)) := by
          rw [Nat.add_right_comm, run_succ_of_next (step_through_zero hrun hsched hz hpc)]
      _ = Sys2Proof.core.run n (s.jump (s.pc + 2 + BitVec.ofNat 16 (2 * k))) :=
          ih hrun hsched (fun a ha => hz a (by omega)) (by omega)
      _ = Sys2Proof.core.run n (s.jump (s.pc + BitVec.ofNat 16 (2 * (k + 1)))) := by rw [hsum]

/-- Settles O26: the slide, with no step after it and with the one step that finds the end of memory. -/
theorem zeroMemorySlidesToOutOfBounds : Obligations.ZeroMemorySlidesToOutOfBounds := by
  intro s k hrun hsched hz hk
  refine ⟨run_through_zero 0 k hrun hsched hz hk, fun hend => ?_⟩
  have hpc : s.pc + BitVec.ofNat 16 (2 * k) = 0x1000 := by
    apply BitVec.eq_of_toNat_eq
    have hlast : (0x1000 : Word).toNat = 4096 := rfl
    rw [hlast, BitVec.toNat_add, BitVec.toNat_ofNat]
    omega
  have hhalt : step (s.jump 0x1000) = .next ((s.jump 0x1000).raise (.outOfBounds 0x1000)) :=
    (step_of_empty (s := s.jump 0x1000) hsched).trans (fetchPastTheEndHalts (s.jump 0x1000) hrun (by simp))
  calc Sys2Proof.core.run (k + 1) s
      = Sys2Proof.core.run 1 (s.jump (s.pc + BitVec.ofNat 16 (2 * k))) := run_through_zero 1 k hrun hsched hz hk
    _ = Sys2Proof.core.run 1 (s.jump 0x1000) := by rw [hpc]
    _ = .next ((s.jump 0x1000).raise (.outOfBounds 0x1000)) := run_succ_of_next hhalt 0

/-! ### Return, call and jumps (R142 to R144, R149) -/

/-- Settles O27: the three ways a pop can end. -/
theorem retPopsTheReturnAddress : Obligations.RetPopsTheReturnAddress := by
  refine ⟨fun s k hk => ?_, fun s h0 hpol => ?_, fun s h0 hpol => ?_, encodedAs_row .ret⟩
  · obtain ⟨hsp, e⟩ | ⟨h0, -⟩ | ⟨h0, -⟩ := s.pop_cases
    · obtain ⟨hret, hframe⟩ := execRet_of_pop e
      have hk' : (⟨s.sp.val - 1, by omega⟩ : Fin 16) = k := Fin.ext (by simp only; omega)
      exact ⟨_, hret, hframe, congrArg s.stack.get hk', congrArg Fin.val hk'⟩
    all_goals simp [h0] at hk
  · obtain ⟨hsp, -⟩ | ⟨-, -, e⟩ | ⟨-, hpol', -⟩ := s.pop_cases
    · simp [h0] at hsp
    · simp only [exec, execRet, e, Except.map, finish, State.raise]
    · simp [hpol] at hpol'
  · obtain ⟨hsp, -⟩ | ⟨-, hpol', -⟩ | ⟨-, -, e⟩ := s.pop_cases
    · simp [h0] at hsp
    · simp [hpol] at hpol'
    · exact (execRet_of_pop e).1

/-- Settles O28: a jump back to its own address undoes the fetch's advance, the only other change of the cycle. -/
theorem jumpSetsPc : Obligations.JumpSetsPc := by
  refine fun s nnn => ⟨⟨s.jump (zextAddr nnn), rfl, s.jump_changes _, zextAddr_toNat nnn, fun hlast => ?_,
    encodedAs_row (.jp nnn)⟩, fun hrun hpc hin hd => ?_⟩
  · subst hlast
    exact State.fetch_of_ge (s := s.jump 0xFFF) (by simp)
  · have htarget : zextAddr nnn = s.pc := BitVec.eq_of_toNat_eq (by rw [zextAddr_toNat, hpc])
    rw [← hpc] at hin hd
    calc s.cycle = exec (.jp nnn) { s with pc := s.pc + 2 } := cycleRunsDecodedInstruction s (.jp nnn) hrun hin hd
      _ = .next (s.jump (zextAddr nnn)) := rfl
      _ = .next s := by rw [htarget]; rfl

/-- Settles O29: the three ways a push can end. -/
theorem callPushesTheReturnAddress : Obligations.CallPushesTheReturnAddress := by
  refine ⟨fun s nnn k hk => ?_, fun s nnn h16 hpol => ?_, fun s nnn h16 hpol => ?_, fun nnn => encodedAs_row (.call nnn)⟩
  · have hroom : s.sp.val < 16 := hk ▸ k.isLt
    obtain ⟨hsp, e⟩ | ⟨h16, -⟩ | ⟨h16, -⟩ := s.push_cases s.pc
    · obtain ⟨hcall, hframe⟩ := execCall_of_push nnn e
      obtain rfl : k = ⟨s.sp.val, hsp⟩ := Fin.ext hk.symm
      exact ⟨_, hcall, hframe, zextAddr_toNat nnn, rfl, fun j => stack_get_set s.stack ⟨s.sp.val, hsp⟩ j s.pc⟩
    all_goals simp [h16] at hroom
  · obtain ⟨hsp, -⟩ | ⟨-, -, e⟩ | ⟨-, hpol', -⟩ := s.push_cases s.pc
    · simp [h16] at hsp
    · simp only [exec, execCall, e, Except.map, finish, State.raise]
    · simp [hpol] at hpol'
  · obtain ⟨hsp, -⟩ | ⟨-, hpol', -⟩ | ⟨-, -, e⟩ := s.push_cases s.pc
    · simp [h16] at hsp
    · simp [hpol] at hpol'
    · obtain ⟨hcall, hframe⟩ := execCall_of_push nnn e
      exact ⟨_, hcall, hframe, zextAddr_toNat nnn, rfl, fun j => stack_get_set s.stack 0 j s.pc⟩

/-- Settles O32: the sum of a 12-bit address and a byte fits in the pc, so a sum past 0xFFF is out of bounds. -/
theorem jumpWithOffsetDoesNotWrap : Obligations.JumpWithOffsetDoesNotWrap := by
  intro s nnn
  have hpc := jumpTarget_toNat nnn (s.readV 0)
  refine ⟨s.jump (zextAddr nnn + zextByte (s.readV 0)), rfl, s.jump_changes _, hpc, fun hout => ?_,
    encodedAs_row (.jpV0 nnn)⟩
  exact State.fetch_of_ge (by rw [State.jump_pc, hpc]; omega)

/-! ### Skips (R145 to R148) -/

/-- Settles O30: the frame of a skip, and the pc of O23. -/
theorem skipOnImmediate : Obligations.SkipOnImmediate := fun s x kk =>
  ⟨⟨_, rfl, s.skipIf_changes _, pcWritersAreThoseListed (.seImm x kk) s _ rfl, encodedAs_row (.seImm x kk)⟩,
    ⟨_, rfl, s.skipIf_changes _, pcWritersAreThoseListed (.sneImm x kk) s _ rfl, encodedAs_row (.sneImm x kk)⟩⟩

/-- Major opcodes 5 and 9 have one function code, 0 (R106). -/
theorem decode_of_fieldN_ne_zero {w : Word} (hop : fieldMsb w = 0x5 ∨ fieldMsb w = 0x9) (hn : fieldN w ≠ 0) :
    decode w = .error (.unimplemented w) := by
  obtain hop | hop := hop <;> simpa [decode, hop] using hn

/-- Settles O31: the frame of a skip, and the pc of O23. -/
theorem skipOnRegisters : Obligations.SkipOnRegisters :=
  ⟨fun s x y =>
    ⟨⟨_, rfl, s.skipIf_changes _, pcWritersAreThoseListed (.seReg x y) s _ rfl, encodedAs_row (.seReg x y)⟩,
      ⟨_, rfl, s.skipIf_changes _, pcWritersAreThoseListed (.sneReg x y) s _ rfl, encodedAs_row (.sneReg x y)⟩⟩,
    fun _ => decode_of_fieldN_ne_zero⟩

end Sys2Proof.Machine
end

section
/-!
Registers and ALU (41_alu.md): each of its instructions with its result as a number or bit by bit, the flag it writes or the
flags it leaves alone, its frame and its encoding (R170 to R182).
-/

namespace Sys2Proof.Machine

/-! ### Results and flags as numbers (R170) -/

theorem byte_sub_toNat (a b : Byte) : (a - b).toNat = (a.toNat + 256 - b.toNat) % 256 := by
  have := b.isLt
  rw [BitVec.toNat_sub]
  omega

theorem byte_shiftRight_one_toNat (a : Byte) : (a >>> 1).toNat = a.toNat / 2 := by
  rw [BitVec.toNat_ushiftRight, Nat.shiftRight_eq_div_pow, pow_one]

theorem byte_shiftLeft_one_toNat (a : Byte) : (a <<< 1).toNat = a.toNat * 2 % 256 := by
  rw [BitVec.toNat_shiftLeft, Nat.shiftLeft_eq, pow_one]

theorem carryFlag_toNat (a b : Byte) : (carryFlag a b).toNat = if 255 < a.toNat + b.toNat then 1 else 0 := by
  simp only [carryFlag, flagByte_toNat, decide_eq_true_eq]

theorem noBorrowFlag_toNat (a b : Byte) : (noBorrowFlag a b).toNat = if b.toNat ≤ a.toNat then 1 else 0 := by
  simp only [noBorrowFlag, flagByte_toNat, decide_eq_true_eq]

/-- A bit of a byte, as VF holds it. -/
theorem flagByte_getLsbD_toNat (a : Byte) (n : Nat) : (flagByte (a.getLsbD n)).toNat = a.toNat / 2 ^ n % 2 := by
  rw [flagByte_toNat, BitVec.getLsbD, ← Nat.toNat_testBit, Bool.toNat, Bool.cond_eq_ite]

theorem shiftedOutRight_toNat (a : Byte) : (shiftedOutRight a).toNat = a.toNat % 2 := by
  rw [shiftedOutRight, flagByte_getLsbD_toNat, pow_zero, Nat.div_one]

/-- Bit 7 is the highest, so what stands from it up is that bit alone. -/
theorem shiftedOutLeft_toNat (a : Byte) : (shiftedOutLeft a).toNat = a.toNat / 128 := by
  have := a.isLt
  rw [shiftedOutLeft, flagByte_getLsbD_toNat]
  omega

/-! ### What the instructions share -/

/-- An instruction that only writes V[x], its result bit by bit. -/
theorem writesRegister_bits {i : Instr} {s : State} {x : Reg} {result : Byte} {bits : Nat → Bool}
    (h : exec i s = .next (s.writeV x result)) (hbits : ∀ b, result.getLsbD b = bits b) :
    ∃ t, exec i s = .next t ∧ ChangesOnly [.v] s t ∧ (∀ r, r ≠ x → t.readV r = s.readV r) ∧
      (∀ b, (t.readV x).getLsbD b = bits b) ∧ EncodedAs i i.row.mask i.row.value :=
  ⟨_, h, s.writeV_changes x result, fun _ hr => State.readV_writeV_of_ne (beq_eq_false_iff_ne.mpr hr) result,
    fun b => by rw [State.readV_writeV_self, hbits], encodedAs_row i⟩

/-- An instruction that writes V[x] and then the flag, both as numbers; the flag is what VF holds, also when x = F (R33). -/
theorem writesRegisterWithFlag_toNat {i : Instr} {s : State} {x : Reg} {result flag : Byte} {m n : Nat}
    (h : exec i s = .next (s.writeWithFlag x result flag)) (hresult : result.toNat = m) (hflag : flag.toNat = n) :
    ∃ t, exec i s = .next t ∧ ChangesOnly [.v] s t ∧
      (∀ r, (t.readV r).toNat = if r = 15 then n else if r = x then m else (s.readV r).toNat) ∧
      EncodedAs i i.row.mask i.row.value :=
  ⟨_, h, s.writeWithFlag_changes x result flag,
    fun r => by rw [State.readV_writeWithFlag, apply_ite BitVec.toNat, apply_ite BitVec.toNat, hresult, hflag],
    encodedAs_row i⟩

/-! ### Loads and logic, without a flag (R171 to R176) -/

/-- Settles O33: one register written, with the byte given or the sum. -/
theorem loadAndAddImmediate : Obligations.LoadAndAddImmediate := by
  intro s x kk
  refine ⟨⟨_, rfl, s.writeV_changes x kk, fun r => s.readV_writeV x r kk, encodedAs_row (.ldImm x kk)⟩,
    ⟨_, rfl, s.writeV_changes x _, fun r => ?_, encodedAs_row (.addImm x kk)⟩⟩
  rw [State.readV_writeV, apply_ite BitVec.toNat, BitVec.toNat_add]

/-- Settles O34: one register written, whose bits the library gives for each of the three operations. -/
theorem registerLogicWritesNoFlag : Obligations.RegisterLogicWritesNoFlag := fun s x y =>
  ⟨⟨_, rfl, s.writeV_changes x _, fun r => s.readV_writeV x r _, encodedAs_row (.ldReg x y)⟩,
    writesRegister_bits (i := .orReg x y) rfl fun _ => BitVec.getLsbD_or,
    writesRegister_bits (i := .andReg x y) rfl fun _ => BitVec.getLsbD_and,
    writesRegister_bits (i := .xorReg x y) rfl fun _ => BitVec.getLsbD_xor⟩

/-! ### Sums, differences and shifts, with their flag (R177 to R181) -/

/-- Settles O35: the result, then the carry. -/
theorem addSetsCarry : Obligations.AddSetsCarry := fun _ x y =>
  writesRegisterWithFlag_toNat (i := .addReg x y) rfl (BitVec.toNat_add _ _) (carryFlag_toNat _ _)

/-- Settles O36: the result, then NOT borrow; SUBN is SUB with the operands exchanged. -/
theorem subtractSetsNoBorrow : Obligations.SubtractSetsNoBorrow := fun _ x y =>
  ⟨writesRegisterWithFlag_toNat (i := .subReg x y) rfl (byte_sub_toNat _ _) (noBorrowFlag_toNat _ _),
    writesRegisterWithFlag_toNat (i := .subn x y) rfl (byte_sub_toNat _ _) (noBorrowFlag_toNat _ _)⟩

/-- Settles O37: the result, then the bit shifted out. -/
theorem shiftsSetTheBitShiftedOut : Obligations.ShiftsSetTheBitShiftedOut := fun _ x y =>
  ⟨writesRegisterWithFlag_toNat (i := .shr x y) rfl (byte_shiftRight_one_toNat _) (shiftedOutRight_toNat _),
    writesRegisterWithFlag_toNat (i := .shl x y) rfl (byte_shiftLeft_one_toNat _) (shiftedOutLeft_toNat _)⟩

/-! ### The random byte (R182) -/

/-- Settles O38: the draw is counted before the write, and a bit that is clear in kk is clear in any byte ANDed with it. -/
theorem randomByteIsMasked : Obligations.RandomByteIsMasked := by
  intro s x kk
  have hx : (s.countDraw.writeV x (s.randomByte &&& kk)).readV x = s.randomByte &&& kk := State.readV_writeV_self _ x _
  refine ⟨_, rfl, s.randomWrite_changes x _, rfl,
    fun r hr => State.readV_writeV_of_ne (beq_eq_false_iff_ne.mpr hr) _, hx, fun b hb => ?_, encodedAs_row (.rnd x kk)⟩
  rw [hx, BitVec.getLsbD_and, hb, Bool.and_false]

end Sys2Proof.Machine
end

section
/-!
Register I and memory (42_index_memory.md): the values that I receives, the decimal digits and the registers stored, the registers
loaded, each with its frame and its encoding (R210 to R215), and the round trip of a store and a load (W4).
-/

namespace Sys2Proof.Machine

/-! ### Bytes written from I up (R76, R213, R214) -/

theorem State.readByte_writeDataFrom_dataAddr (s : State) {bs : List Byte} (hlen : bs.length ≤ 4096) {j : Nat}
    (hj : j < bs.length) : (s.writeDataFrom 0 bs).readByte (s.dataAddr j) = bs[j] :=
  (State.readByte_writeDataFrom bs s 0 _ (by omega)).1 j hj (by rw [Nat.zero_add])

theorem State.readByte_writeDataFrom_of_ne (s : State) {bs : List Byte} (hlen : bs.length ≤ 4096) {a : Addr}
    (ha : ∀ j, j < bs.length → a ≠ s.dataAddr j) : (s.writeDataFrom 0 bs).readByte a = s.readByte a :=
  (State.readByte_writeDataFrom bs s 0 a (by omega)).2 fun j hj => by rw [Nat.zero_add]; exact ha j hj

/-! ### The values of I (R210 to R212) -/

/-- An instruction that only writes I, its value as a number. -/
theorem writesIndex_toNat {i : Instr} {s : State} {w : Word} {n : Nat} (h : exec i s = .next (s.writeI w))
    (hw : w.toNat = n) :
    ∃ t, exec i s = .next t ∧ ChangesOnly [.regI] s t ∧ t.regI.toNat = n ∧ EncodedAs i i.row.mask i.row.value :=
  ⟨_, h, s.writeI_changes w, hw, encodedAs_row i⟩

theorem add_zextByte_toNat (w : Word) (b : Byte) : (w + zextByte b).toNat = (w.toNat + b.toNat) % 65536 := by
  rw [BitVec.toNat_add, zextByte_toNat]

/-- Settles O39: each of the three writes I alone, with an operand extended, a sum or a product. -/
theorem indexRegisterResults : Obligations.IndexRegisterResults :=
  ⟨fun _ nnn => writesIndex_toNat (i := .ldI nnn) rfl (zextAddr_toNat nnn),
    fun _ x => writesIndex_toNat (i := .addI x) rfl (add_zextByte_toNat _ _),
    fun _ x => writesIndex_toNat (i := .ldF x) rfl (glyphAddr_toNat _)⟩

/-! ### Stores (R213, R214) -/

/-- A digit fits in a byte, so storing it as one loses nothing. -/
theorem decimalDigits_toNat (b : Byte) :
    (decimalDigits b).map BitVec.toNat = [b.toNat / 100, b.toNat / 10 % 10, b.toNat % 10] := by
  have := b.isLt
  simp only [decimalDigits, List.map, BitVec.toNat_ofNat, List.cons.injEq, and_true]
  omega

theorem length_decimalDigits (b : Byte) : (decimalDigits b).length = 3 := rfl

/-- What Fx33 stores: the digits, the most significant one at I (R213). -/
theorem exec_ldB_readByte_toNat {s t : State} {x : Reg} (h : exec (.ldB x) s = .next t) {j : Nat} (hj : j < 3) :
    (t.readByte (s.dataAddr j)).toNat =
      [(s.readV x).toNat / 100, (s.readV x).toNat / 10 % 10, (s.readV x).toNat % 10][j] := by
  cases h
  have hlen := length_decimalDigits (s.readV x)
  rw [s.readByte_writeDataFrom_dataAddr (by omega) (by omega)]
  simp only [← decimalDigits_toNat, List.getElem_map]

/-- Settles O40: the three bytes written from I up are the digits. -/
theorem decimalDigitsAreStored : Obligations.DecimalDigitsAreStored := fun s x =>
  have hlen : (decimalDigits (s.readV x)).length ≤ 4096 := by rw [length_decimalDigits]; decide
  ⟨_, rfl, s.writeDataFrom_changes 0 _, s.dataAddr_toNat, exec_ldB_readByte_toNat rfl (j := 0) (by decide),
    exec_ldB_readByte_toNat rfl (j := 1) (by decide), exec_ldB_readByte_toNat rfl (j := 2) (by decide),
    fun _ => s.readByte_writeDataFrom_of_ne hlen, encodedAs_row (.ldB x)⟩

/-- Fx55 leaves every byte but those at I + k, for k up to x (R214). -/
theorem exec_storeRegs_readByte_of_ne {s t : State} {x : Reg} {a : Addr} (h : exec (.storeRegs x) s = .next t)
    (ha : ∀ k : Reg, k ≤ x → a ≠ s.dataAddr k.val) : t.readByte a = s.readByte a := by
  cases h
  have hlen := s.length_regsUpTo x
  refine s.readByte_writeDataFrom_of_ne (by omega) fun j hj => ?_
  rw [hlen] at hj
  exact ha ⟨j, by omega⟩ (Nat.le_of_lt_succ hj)

/-- Settles O41: the bytes stored are those of O45, and no other is written. -/
theorem registersAreStored : Obligations.RegistersAreStored := fun s x =>
  ⟨_, rfl, s.writeDataFrom_changes 0 _, s.dataAddr_toNat, fun _ => exec_storeRegs_readByte rfl,
    fun _ => exec_storeRegs_readByte_of_ne rfl, encodedAs_row (.storeRegs x)⟩

/-! ### Loads (R215) -/

/-- What Fx65 loads: the byte at I + r into V[r], for r up to x, and no other register. -/
theorem exec_loadRegs_readV {s t : State} {x : Reg} (h : exec (.loadRegs x) s = .next t) (r : Reg) :
    t.readV r = if r ≤ x then s.readByte (s.dataAddr r.val) else s.readV r := by
  cases h
  simp only [State.readV_loadFirst s r _ x.isLt, Nat.lt_succ_iff, Fin.le_def, State.readData]

/-- Settles O42: the load of each register, in the frame of the loads. -/
theorem registersAreLoaded : Obligations.RegistersAreLoaded := fun s x =>
  ⟨_, rfl, s.loadFirst_changes _, s.dataAddr_toNat, exec_loadRegs_readV rfl, encodedAs_row (.loadRegs x)⟩

/-! ### The round trip (W4) -/

/-- Settles O43: with I kept by the store and by what stands between, the load reads the addresses stored at. -/
theorem storeThenLoadRestoresRegisters : Obligations.StoreThenLoadRestoresRegisters := by
  intro s t u w x hstore hI hmem hload k hk
  have hIs : u.regI = s.regI := hI.trans (exec_changes hstore .regI (by simp [partsWritten]))
  calc w.readV k
    _ = u.readByte (u.dataAddr k.val) := by rw [exec_loadRegs_readV hload, if_pos hk]
    _ = t.readByte (s.dataAddr k.val) := by rw [State.dataAddr_congr hIs, hmem]
    _ = s.readV k := exec_storeRegs_readByte hstore hk

end Sys2Proof.Machine
end

section
/-!
The display (43_display.md): CLS blanks the framebuffer, DRW XORs the sprite into it and tells the collision in VF, and a sprite
drawn twice at one place leaves the framebuffer as it was (R240, R241, W5).
-/

namespace Sys2Proof.Machine

/-! ### Clearing (R240) -/

/-- Settles O46: the framebuffer written does not depend on the state, so a second CLS writes the same one. -/
theorem clearScreenBlanksEveryCell : Obligations.ClearScreenBlanksEveryCell := fun _ =>
  ⟨_, rfl, execCls_changes rfl, fbCell_blank, rfl, encodedAs_row .cls⟩

/-! ### One draw (R241) -/

/-- DRW draws the sprite at I from the collision flag false, and VF is the flag of that draw. -/
theorem exec_drw_drawn {s t : State} {x y : Reg} {n : Fin 16} (h : exec (.drw x y n) s = .next t) :
    ∃ collided, t.readV 15 = flagByte collided ∧
      Drawn (spriteLights s (s.readV x) (s.readV y) n.val) (s.fb, false) (t.fb, collided) := by
  cases h
  exact ⟨_, State.readV_setDrawn s _ 15, s.drawRows_drawn _ _ n.val (by omega)⟩

/-- DRW writes no register but VF. -/
theorem exec_drw_readV_of_ne {s t : State} {x y r : Reg} {n : Fin 16} (h : exec (.drw x y n) s = .next t)
    (hr : r ≠ 15) : t.readV r = s.readV r := by
  cases h
  rw [State.readV_setDrawn, if_neg hr]

/-- The flag of a draw that begins with it false. -/
theorem Drawn.collided_iff {L : Fin 64 → Fin 32 → Prop} {fb : Framebuffer} {d : Framebuffer × Bool}
    (h : Drawn L (fb, false) d) : d.2 = true ↔ ∃ px py, L px py ∧ fbCell fb px py = true := by
  simpa using h.2

/-- Settles O47: VF is the flag of the draw, 1 where it is set and 0 where it is not. -/
theorem drawXorsTheSprite : Obligations.DrawXorsTheSprite := by
  intro s x y n
  refine ⟨_, rfl, s.setDrawn_changes _, ?_⟩
  obtain ⟨collided, hVF, hdraw⟩ := exec_drw_drawn (s := s) (x := x) (y := y) (n := n) rfl
  refine ⟨hdraw.1, fun r => exec_drw_readV_of_ne rfl, ?_, ?_, encodedAs_row (.drw x y n)⟩
  · rw [hVF, flagByte_eq_one, hdraw.collided_iff]
  · rw [hVF, flagByte_eq_zero, ← Bool.not_eq_true, hdraw.collided_iff]
    simp only [not_exists, not_and, Bool.not_eq_true]

/-! ### Two draws of one sprite (W5) -/

/-- The cells a sprite lights depend on I and the bytes of memory alone. -/
theorem spriteLights_congr {s t : State} (hI : t.regI = s.regI) (hmem : ∀ a, t.readByte a = s.readByte a) :
    spriteLights t = spriteLights s := by
  funext ox oy n px py
  simp only [spriteLights, State.dataAddr_congr hI, hmem]

/-- A draw changes neither I nor memory, so the sprite stays the same. -/
theorem exec_drw_spriteLights {s t : State} {x y : Reg} {n : Fin 16} (h : exec (.drw x y n) s = .next t) :
    spriteLights t = spriteLights s :=
  have hframe := exec_changes h
  spriteLights_congr (hframe .regI (by simp [partsWritten])) (hframe .mem (by simp [partsWritten]))

/-- XOR with the same cells undoes itself, whatever the flags. -/
theorem Drawn.twice_restores {L : Fin 64 → Fin 32 → Prop} {fb fb' fb'' : Framebuffer} {a b c d : Bool}
    (h : Drawn L (fb, a) (fb', b)) (h' : Drawn L (fb', c) (fb'', d)) : fb'' = fb := by
  refine Framebuffer.ext fun px py => Bool.eq_iff_iff.mpr ?_
  rw [h'.1, h.1]
  tauto

/-- On a clear framebuffer a draw lights the sprite's cells. -/
theorem Drawn.lit_of_clear {L : Fin 64 → Fin 32 → Prop} {d e : Framebuffer × Bool} (h : Drawn L d e)
    (clear : ∀ px py, fbCell d.1 px py = false) (px : Fin 64) (py : Fin 32) : fbCell e.1 px py = true ↔ L px py := by
  rw [h.1, clear]
  simp

/-- Settles O48: neither coordinate is in VF, so both draws toggle the same cells; after the first on a clear framebuffer exactly
those are lit, and the second collides on each. -/
theorem drawTwiceErases : Obligations.DrawTwiceErases := by
  intro s t u x y n hx hy hst htu
  obtain ⟨_, -, hfirst⟩ := exec_drw_drawn hst
  obtain ⟨collided, hVF, hsecond⟩ := exec_drw_drawn htu
  rw [exec_drw_spriteLights hst, exec_drw_readV_of_ne hst hx, exec_drw_readV_of_ne hst hy] at hsecond
  refine ⟨hfirst.twice_restores hsecond, fun clear => ?_⟩
  rw [hVF, flagByte_eq_one, hsecond.collided_iff]
  simp only [hfirst.lit_of_clear clear, and_self]

end Sys2Proof.Machine
end

section
/-!
Keys and timers (44_keys_timers.md): the skips on a key and their fault, the copies to and from the timers, and the wait for a key,
each with its frame and its encoding (R260 to R266).
-/

namespace Sys2Proof.Machine

/-! ### Skips on a key (R260 to R262) -/

section
variable {s : State} {v : Byte} {c : Bool → Bool}

/-- SKP and SKNP on a value that names a key: a skip on the wanted condition of that key's cell. -/
theorem keySkip_of_key {k : Fin 16} (h : v.toNat = k.val) :
    finish s ((s.keyAt v).map (fun down => s.skipIf (c down))) = .next (s.skipIf (c (s.key.get k))) := by
  obtain ⟨hv, e⟩ | ⟨hv, -⟩ := s.keyAt_cases v
  · obtain rfl : (⟨v.toNat, hv⟩ : Fin 16) = k := Fin.ext h
    rw [e]
    rfl
  · omega

/-- SKP and SKNP on a value that names no key: the fatal condition, before any write (D7). -/
theorem keySkip_of_ge (h : 16 ≤ v.toNat) :
    finish s ((s.keyAt v).map (fun down => s.skipIf (c down))) = .next (s.raise (.keyIndexOutOfRange v)) := by
  obtain ⟨hv, -⟩ | ⟨-, e⟩ := s.keyAt_cases v
  · omega
  · rw [e]
    rfl

end

/-- Settles O49: a value names a key or it does not, and SKNP skips on the cell's negation. -/
theorem keySkipsReadTheLatch : Obligations.KeySkipsReadTheLatch :=
  ⟨fun s _ k hk =>
    ⟨⟨_, keySkip_of_key (c := id) hk, s.skipIf_changes _, s.skipIf_pc _⟩,
      ⟨_, keySkip_of_key (c := not) hk, s.skipIf_changes _, by cases h : s.key.get k <;> simp⟩⟩,
    fun _ _ hv => ⟨keySkip_of_ge (c := id) hv, keySkip_of_ge (c := not) hv⟩,
    fun x => ⟨encodedAs_row (.skp x), encodedAs_row (.sknp x)⟩⟩

/-! ### The timers (R263, R265, R266) -/

/-- Settles O50: a write of V[x] alone, and one of DT alone. -/
theorem delayTimerIsReadAndWritten : Obligations.DelayTimerIsReadAndWritten := fun s x =>
  ⟨⟨_, rfl, s.writeV_changes x s.dt, fun r => s.readV_writeV x r s.dt, encodedAs_row (.ldVxDT x)⟩,
    ⟨_, rfl, s.writeDT_changes _, s.writeDT_dt _, encodedAs_row (.ldDTVx x)⟩⟩

/-- Settles O51: the event is raised by a tick, and this is a write of ST alone, which keeps the count of events. -/
theorem soundTimerWriteRaisesNoEvent : Obligations.SoundTimerWriteRaisesNoEvent := fun s x =>
  ⟨_, rfl, s.writeST_changes _, s.writeST_st _, s.writeST_soundEvents _, encodedAs_row (.ldSTVx x)⟩

/-! ### The wait for a key (R264) -/

/-- Fx0A with every key released: back to its own address. -/
theorem exec_ldVxK_of_released {s : State} (x : Reg) (hall : ∀ k, s.key.get k = false) :
    exec (.ldVxK x) s = .next (s.jump (s.pc - 2)) := by
  obtain ⟨e, -⟩ | ⟨j, -, hj, -⟩ := s.lowestKey_cases
  · simp only [exec, execLdVxK, e]
  · simp [hall j] at hj

/-- Fx0A with a key pressed: the lowest one, which is the only pressed key with none pressed below it (D8). -/
theorem exec_ldVxK_of_lowest {s : State} (x : Reg) {k : Fin 16} (hk : s.key.get k = true)
    (hbelow : ∀ j, j < k → s.key.get j = false) :
    exec (.ldVxK x) s = .next (s.writeV x (BitVec.ofNat 8 k.val)) := by
  obtain ⟨-, hall⟩ | ⟨j, e, hj, hjbelow⟩ := s.lowestKey_cases
  · simp [hall k] at hk
  · have hkj : ¬ k < j := fun hlt => by simp [hjbelow k hlt] at hk
    have hjk : ¬ j < k := fun hlt => by simp [hbelow j hlt] at hj
    obtain rfl : j = k := le_antisymm (not_lt.mp hkj) (not_lt.mp hjk)
    simp only [exec, execLdVxK, e]

/-- A key's number fits in a byte, so V[x] holds it. -/
theorem keyByte_toNat (k : Fin 16) : (BitVec.ofNat 8 k.val).toNat = k.val := by
  rw [BitVec.toNat_ofNat]
  omega

/-- Settles O52: the way back that Fx0A takes while it waits undoes the fetch's advance, the only other change of the cycle. -/
theorem waitForKeyOrTakeTheLowest : Obligations.WaitForKeyOrTakeTheLowest := by
  refine ⟨fun s x hall => ?_, fun s x k hk hbelow => ?_, fun s x hrun hin hd hall => ?_,
    fun x => encodedAs_row (.ldVxK x)⟩
  · exact ⟨_, exec_ldVxK_of_released x hall, s.jump_changes _, BitVec.sub_add_cancel _ _⟩
  · refine ⟨_, exec_ldVxK_of_lowest x hk hbelow, s.writeV_changes x _, fun r => ?_⟩
    rw [State.readV_writeV, apply_ite BitVec.toNat, keyByte_toNat]
  · calc s.cycle = exec (.ldVxK x) { s with pc := s.pc + 2 } := cycleRunsDecodedInstruction s (.ldVxK x) hrun hin hd
      _ = .next (s.jump (s.pc + 2 - 2)) := exec_ldVxK_of_released (s := { s with pc := s.pc + 2 }) x hall
      _ = .next s := by rw [BitVec.add_sub_cancel]; rfl

end Sys2Proof.Machine
end

section
/-!
The host's operations and exceptions (60_exceptions.md): the fatal condition an instruction takes (R300, R301), precise faults
(R303), the halted state (R304), the timers' tick and its event (R308, R309), the keyboard latch (R311) and the framebuffer read
(R312).
-/

namespace Sys2Proof.Machine

/-! ### The fatal condition of an instruction (R300, R301) -/

/-- The fatal condition that an instruction takes, if any, on the state after its fetch: CALL on a full stack and RET on an empty
one under the policy Fault (R40, R41), SKP and SKNP on a value that names no key (R260). -/
def fatalOf : Instr → State → Option Fatal
  | .call _, s => if s.sp = 16 ∧ s.params.stackPolicy = .fault then some (.stackOverflow s.pc) else none
  | .ret, s => if s.sp = 0 ∧ s.params.stackPolicy = .fault then some .stackUnderflow else none
  | .skp x, s | .sknp x, s => if 16 ≤ (s.readV x).toNat then some (.keyIndexOutOfRange (s.readV x)) else none
  | _, _ => none

/-- What an instruction answers from `s`: with a fatal condition, `s` with that condition raised (R302, R303); with none, a next
state of the same `status`. -/
def Answers (s : State) (r : Result State) : Option Fatal → Prop
  | some f => r = .next (s.raise f)
  | none => ∃ t, r = .next t ∧ t.status = s.status

theorem Answers.of_raise {s : State} {r : Result State} {c : Prop} [Decidable c] {f : Fatal} (hc : c)
    (hr : r = .next (s.raise f)) : Answers s r (if c then some f else none) := by
  rwa [if_pos hc]

theorem Answers.of_effect {s t : State} {r : Result State} {c : Prop} [Decidable c] {f : Fatal} (hc : ¬ c)
    (hr : r = .next t) (hstatus : t.status = s.status) : Answers s r (if c then some f else none) := by
  rw [if_neg hc]
  exact ⟨t, hr, hstatus⟩

/-- An instruction whose frame leaves `status` out takes no fatal condition. -/
theorem Answers.of_frame {i : Instr} {s t : State} (h : exec i s = .next t) (hi : .status ∉ partsWritten i) :
    Answers s (exec i s) none := ⟨t, h, exec_changes h .status hi⟩

theorem execRet_answers (s : State) : Answers s (exec .ret s) (fatalOf .ret s) := by
  obtain ⟨hsp, e⟩ | ⟨h0, hpol, e⟩ | ⟨h0, hpol, e⟩ := s.pop_cases
  · exact .of_effect (fun hc => by simp [hc.1] at hsp) (execRet_of_pop e).1 rfl
  · exact .of_raise ⟨h0, hpol⟩ (by simp only [exec, execRet, e, Except.map, finish])
  · exact .of_effect (by simp [hpol]) (execRet_of_pop e).1 rfl

theorem execCall_answers (nnn : Addr) (s : State) : Answers s (exec (.call nnn) s) (fatalOf (.call nnn) s) := by
  obtain ⟨hsp, e⟩ | ⟨h16, hpol, e⟩ | ⟨h16, hpol, e⟩ := s.push_cases s.pc
  · exact .of_effect (fun hc => by simp [hc.1] at hsp) (execCall_of_push nnn e).1 rfl
  · exact .of_raise ⟨h16, hpol⟩ (by simp only [exec, execCall, e, Except.map, finish])
  · exact .of_effect (by simp [hpol]) (execCall_of_push nnn e).1 rfl

/-- SKP and SKNP: a skip on some condition of the key's cell, or the fatal condition (R260). -/
theorem keySkip_answers (s : State) (v : Byte) (c : Bool → Bool) :
    Answers s (finish s ((s.keyAt v).map (fun down => s.skipIf (c down))))
      (if 16 ≤ v.toNat then some (.keyIndexOutOfRange v) else none) := by
  by_cases hv : 16 ≤ v.toNat
  · exact .of_raise hv (keySkip_of_ge hv)
  · exact .of_effect hv (keySkip_of_key (k := ⟨v.toNat, by omega⟩) rfl) (s.skipIf_status _)

/-- Fx0A answers a next state, waiting or not, and raises nothing (R264). -/
theorem execLdVxK_answers (x : Reg) (s : State) : Answers s (exec (.ldVxK x) s) none := by
  obtain ⟨e, -⟩ | ⟨j, e, -⟩ := s.lowestKey_cases
  · exact ⟨s.jump (s.pc - 2), by simp only [exec, execLdVxK, e], rfl⟩
  · exact ⟨s.writeV x (BitVec.ofNat 8 j.val), by simp only [exec, execLdVxK, e], rfl⟩

/-- Every instruction takes its fatal condition or ends with its effect, whose frame leaves `status` out. -/
theorem exec_answers (i : Instr) (s : State) : Answers s (exec i s) (fatalOf i s) := by
  cases i with
  | ret => exact execRet_answers s
  | call nnn => exact execCall_answers nnn s
  | skp x => exact keySkip_answers s (s.readV x) id
  | sknp x => exact keySkip_answers s (s.readV x) not
  | ldVxK x => exact execLdVxK_answers x s
  | _ => exact .of_frame rfl (by simp [partsWritten])

/-- Both ways an instruction can end, with the fatal condition that decides between them. -/
theorem exec_cases (i : Instr) (s : State) :
    (∃ f, fatalOf i s = some f ∧ exec i s = .next (s.raise f)) ∨
    (fatalOf i s = none ∧ ∃ t, exec i s = .next t ∧ t.status = s.status) := by
  have h := exec_answers i s
  cases hf : fatalOf i s with
  | some f => exact .inl ⟨f, rfl, by rwa [hf] at h⟩
  | none => exact .inr ⟨rfl, by rwa [hf] at h⟩

/-- Settles O12: both ways an instruction can end are next states. -/
theorem everyInstructionAnswersANextState : Obligations.EveryInstructionAnswersANextState := by
  intro i s
  obtain ⟨f, -, h⟩ | ⟨-, t, h, -⟩ := exec_cases i s
  · exact ⟨s.raise f, h⟩
  · exact ⟨t, h⟩

/-! ### The faults of a cycle (R303, R305) -/

/-- From a running state an instruction leaves exactly its fatal condition in `status`. -/
theorem exec_halted_iff {i : Instr} {s t : State} {f : Fatal} (hrun : s.status = .running) (h : exec i s = .next t) :
    t.status = .halted f ↔ fatalOf i s = some f := by
  obtain ⟨g, hg, e⟩ | ⟨hnone, u, e, hu⟩ := exec_cases i s <;> rw [e] at h <;> cases h
  · simp [hg]
  · simp [hnone, hu, hrun]

/-- An instruction that halts a running block changes nothing but `status` (R303). -/
theorem exec_eq_raise_of_halted {i : Instr} {s t : State} {f : Fatal} (hrun : s.status = .running)
    (h : exec i s = .next t) (hf : t.status = .halted f) : t = s.raise f := by
  obtain ⟨g, -, e⟩ | ⟨-, u, e, hu⟩ := exec_cases i s <;> rw [e] at h <;> cases h
  · obtain rfl : g = f := by simpa using hf
    rfl
  · simp [hu, hrun] at hf

/-- The conditions of R300 that an instruction can take, each with its info. -/
theorem fatalOf_eq_some_iff (i : Instr) (s : State) (f : Fatal) : fatalOf i s = some f ↔
    match f with
    | .stackOverflow r => (∃ nnn, i = .call nnn) ∧ s.sp = 16 ∧ s.params.stackPolicy = .fault ∧ r = s.pc
    | .stackUnderflow => i = .ret ∧ s.sp = 0 ∧ s.params.stackPolicy = .fault
    | .keyIndexOutOfRange v => (∃ x, (i = .skp x ∨ i = .sknp x) ∧ v = s.readV x) ∧ 16 ≤ v.toNat
    | .outOfBounds _ | .unimplementedOpcode _ | .capacityError _ => False := by
  cases i with
  | call nnn => cases f <;> simp [fatalOf, and_assoc, eq_comm]
  | ret => cases f <;> simp [fatalOf]
  | skp x | sknp x =>
    cases f with
    | keyIndexOutOfRange v =>
      have info : 16 ≤ (s.readV x).toNat ∧ s.readV x = v ↔ v = s.readV x ∧ 16 ≤ v.toNat :=
        ⟨fun ⟨h, e⟩ => ⟨e.symm, e ▸ h⟩, fun ⟨e, h⟩ => ⟨e ▸ h, e.symm⟩⟩
      simpa [fatalOf] using info
    | _ => simp [fatalOf]
  | _ => cases f <;> simp [fatalOf]

/-- Settles O13: each way a cycle can end settles all six conditions at once. -/
theorem cycleHaltsOnlyOnListedConditions : Obligations.CycleHaltsOnlyOnListedConditions := by
  intro s t f hrun hc
  obtain ⟨g, hhalt, -⟩ | ⟨-, hout, e⟩ | ⟨-, hin, ⟨err, hd⟩, e⟩ | ⟨-, hin, i, hd, e⟩ := s.cycle_cases
  · simp [hrun] at hhalt
  · have hin : ¬ s.pc.toNat + 1 < 4096 := by omega
    rw [e] at hc
    cases hc
    cases f with
    | outOfBounds p => simp [hout, eq_comm (a := p)]
    | _ => simp [hin]
  · have hout : ¬ 4096 ≤ s.pc.toNat + 1 := by omega
    have hill : legalWord (s.wordAt s.pc.toNat) = false := by
      simp [← Bool.not_eq_true, ← exists_decode_iff_legalWord, hd]
    rw [e] at hc
    cases hc
    cases f with
    | unimplementedOpcode w =>
      constructor
      · rintro ⟨⟩; exact ⟨hin, rfl, hill⟩
      · rintro ⟨-, rfl, -⟩; rfl
    | _ => simp [hout, hd]
  · have hout : ¬ 4096 ≤ s.pc.toNat + 1 := by omega
    have hlegal : legalWord (s.wordAt s.pc.toNat) = true := (exists_decode_iff_legalWord _).mp ⟨i, hd⟩
    rw [exec_halted_iff (s := { s with pc := s.pc + 2 }) hrun (e.symm.trans hc), fatalOf_eq_some_iff]
    cases f with
    | unimplementedOpcode w =>
      refine ⟨False.elim, ?_⟩
      rintro ⟨-, rfl, hill⟩
      simp [hlegal] at hill
    | _ => simp [hout, hin, hd, State.readV]

/-- Settles O14: the three ways a running block can be halted, in the fetch, in decode and by the instruction. -/
theorem cycleFaultsArePrecise : Obligations.CycleFaultsArePrecise := by
  intro s t f hrun hc hf
  obtain ⟨g, hhalt, -⟩ | ⟨-, hout, e⟩ | ⟨-, hin, -, e⟩ | ⟨-, hin, i, -, e⟩ := s.cycle_cases
  · simp [hrun] at hhalt
  · rw [e] at hc
    cases hc
    cases hf
    rw [if_pos hout]
    rfl
  · rw [e] at hc
    cases hc
    cases hf
    rw [if_neg (by omega)]
    rfl
  · rw [exec_eq_raise_of_halted (s := { s with pc := s.pc + 2 }) hrun (e.symm.trans hc) hf, if_neg (by omega)]
    rfl

/-! ### The halted state (R304) -/

section
variable {s : State} {f : Fatal} (h : s.status = .halted f)
include h

theorem State.cycle_of_halted : s.cycle = .next s := by
  obtain ⟨-, -, e⟩ | ⟨hrun, -⟩ | ⟨hrun, -⟩ | ⟨hrun, -⟩ := s.cycle_cases
  · exact e
  all_goals simp [h] at hrun

theorem State.tick_of_halted : s.tick = s := by
  obtain ⟨-, -, e⟩ | ⟨hrun, -⟩ := s.tick_cases
  · exact e
  · simp [h] at hrun

theorem State.loadProgram_of_halted (bs : List Byte) : s.loadProgram bs = .refused .loadRefused := by
  obtain ⟨-, e⟩ | ⟨hrun, -⟩ | ⟨hrun, -⟩ := s.loadProgram_cases bs
  · exact e
  all_goals simp [h] at hrun

/-- Every operation but `create` leaves a halted block's `status`. -/
theorem operate_status_of_halted {op : HostOp} {t : State} (hop : op ≠ .create) (ht : operate op s = .next t) :
    t.status = .halted f := by
  cases op with
  | create => exact absurd rfl hop
  | loadProgram bs => cases (State.loadProgram_of_halted h bs).symm.trans ht
  | cycle => cases (State.cycle_of_halted h).symm.trans ht; exact h
  | tick =>
    obtain rfl : s.tick = t := by simpa [operate] using ht
    rwa [State.tick_of_halted h]
  | setKey k pressed =>
    obtain ⟨_, e⟩ | ⟨-, e⟩ := s.setKey_cases k pressed <;> cases e.symm.trans ht
    exact h
  | readFramebuffer => cases ht; exact h

end

theorem State.setKey_of_lt (s : State) {k : Nat} (h : k < 16) (pressed : Bool) :
    s.setKey k pressed = .next { s with key := s.key.set k pressed h } := dif_pos h

/-- Settles O15: the operations of a halted block, one by one. -/
theorem haltedUntilCreate : Obligations.HaltedUntilCreate := fun s _ h =>
  ⟨State.cycle_of_halted h, congrArg _ (State.tick_of_halted h), State.loadProgram_of_halted h,
    fun _ hk pressed => s.setKey_of_lt hk pressed, fun _ _ => operate_status_of_halted h, ⟨s.create, rfl, rfl⟩⟩

/-! ### The tick (R308, R309) -/

section
variable {s : State} (hrun : s.status = .running)
include hrun

theorem State.tick_of_running : s.tick = { s with
    dt := countDown s.dt
    st := countDown s.st
    soundEvents := if s.st = 1 then s.soundEvents + 1 else s.soundEvents } := by
  obtain ⟨f, hf, -⟩ | ⟨-, e⟩ := s.tick_cases
  · simp [hrun] at hf
  · exact e

theorem State.tick_changes : ChangesOnly [.dt, .st, .soundEvents] s s.tick := by
  rw [State.tick_of_running hrun]
  intro p hp
  cases p with
  | dt | st | soundEvents => simp at hp
  | v | mem => exact fun _ => rfl
  | _ => rfl

theorem State.tick_dt_toNat : s.tick.dt.toNat = s.dt.toNat - 1 := by
  rw [State.tick_of_running hrun, countDown_toNat]

theorem State.tick_st_toNat : s.tick.st.toNat = s.st.toNat - 1 := by
  rw [State.tick_of_running hrun, countDown_toNat]

theorem State.tick_soundEvents : s.tick.soundEvents = s.soundEvents + if s.st.toNat = 1 then 1 else 0 := by
  have hst : s.st = 1 ↔ s.st.toNat = 1 := BitVec.toNat_inj.symm
  simp only [State.tick_of_running hrun, hst]
  split <;> rfl

theorem State.tick_running : s.tick.status = .running :=
  Eq.trans (State.tick_changes hrun .status (by decide)) hrun

end

/-- Settles O53: the tick's frame, its two timers and its event. -/
theorem tickCountsBothTimersDown : Obligations.TickCountsBothTimersDown := fun s hrun =>
  ⟨s.tick, rfl, State.tick_changes hrun, State.tick_dt_toNat hrun, State.tick_st_toNat hrun, State.tick_soundEvents hrun⟩

/-- Settles O54, by induction on the ticks, the first one taken off: it raises the event when ST was 1, and the others when ST
was from 2 to n + 1. -/
theorem ticksDecayTimersAndSignalOnce : Obligations.TicksDecayTimersAndSignalOnce := by
  intro n
  induction n with
  | zero =>
    intro s _
    refine ⟨rfl, rfl, ?_⟩
    rw [if_neg (by omega)]
    rfl
  | succ n ih =>
    intro s hrun
    obtain ⟨hdt, hst, hevents⟩ := ih s.tick (State.tick_running hrun)
    rw [State.tick_dt_toNat hrun] at hdt
    rw [State.tick_st_toNat hrun] at hst hevents
    rw [State.tick_soundEvents hrun] at hevents
    rw [Function.iterate_succ_apply, hdt, hst, hevents]
    refine ⟨by omega, by omega, ?_⟩
    split_ifs <;> omega

/-! ### The latch and the framebuffer (R311, R312) -/

/-- Settles O55: the cell of a valid key, and the refusal of any other number. -/
theorem setKeyWritesTheLatch : Obligations.SetKeyWritesTheLatch := by
  refine ⟨fun s k pressed => ⟨_, s.setKey_of_lt k.isLt pressed, ?_, fun j => ?_⟩, fun s k pressed hk => dif_neg (by omega)⟩
  · intro p hp
    cases p with
    | key => simp at hp
    | v | mem => exact fun _ => rfl
    | _ => rfl
  · simp only [Vector.get_eq_getElem, Vector.getElem_set, Fin.ext_iff, eq_comm]

/-- Settles O59: the operation leaves the state, and the grid that the host is given is the framebuffer itself. -/
theorem framebufferReadChangesNothing : Obligations.FramebufferReadChangesNothing := fun _ => ⟨rfl, fun _ _ => rfl⟩

end Sys2Proof.Machine
end

section
/-!
The program load (70_reset_and_hazards.md): the copy to 0x200, the load that is too long and the refused load (R342, R343).
-/

namespace Sys2Proof.Machine

/-- The state that an accepted load leaves (R342). -/
def State.withProgram (s : State) (bs : List Byte) : State :=
  { s with mem := Memory.copy s.params.font s.mem 0x200 bs, loaded := true }

theorem State.withProgram_changes (s : State) (bs : List Byte) : ChangesOnly [.mem, .loaded] s (s.withProgram bs) := by
  intro p hp
  cases p with
  | mem | loaded => simp at hp
  | v => exact fun _ => rfl
  | _ => rfl

theorem State.readByte_withProgram (s : State) (bs : List Byte) (a : Addr) :
    (s.withProgram bs).readByte a = if h : 0x200 ≤ a.toNat ∧ a.toNat < 0x200 + bs.length then
      bs[a.toNat - 0x200]'(by omega) else s.readByte a :=
  Memory.read_copy s.mem bs 0x200 a.toNat

/-- Byte k of the program stands at 0x200 + k. -/
theorem State.readByte_withProgram_of_eq (s : State) (bs : List Byte) {k : Nat} (h : k < bs.length) {a : Addr}
    (ha : a.toNat = 0x200 + k) : (s.withProgram bs).readByte a = bs[k] := by
  rw [State.readByte_withProgram, dif_pos (by omega)]
  simp only [ha, Nat.add_sub_cancel_left]

theorem State.readByte_withProgram_of_outside (s : State) (bs : List Byte) {a : Addr}
    (ha : a.toNat < 0x200 ∨ 0x200 + bs.length ≤ a.toNat) : (s.withProgram bs).readByte a = s.readByte a := by
  rw [State.readByte_withProgram, dif_neg (by omega)]

section
variable {s : State} {bs : List Byte}

theorem State.loadProgram_of_fits (hrun : s.status = .running) (hfree : s.loaded = false) (hlen : bs.length ≤ 3584) :
    s.loadProgram bs = .next (s.withProgram bs) := by
  obtain ⟨hbusy, -⟩ | ⟨-, -, hlong, -⟩ | ⟨-, -, -, e⟩ := s.loadProgram_cases bs
  · simp [hrun, hfree] at hbusy
  · omega
  · exact e

theorem State.loadProgram_of_too_long (hrun : s.status = .running) (hfree : s.loaded = false) (hlen : 3584 < bs.length) :
    s.loadProgram bs = .next (s.raise (.capacityError bs.length)) := by
  obtain ⟨hbusy, -⟩ | ⟨-, -, -, e⟩ | ⟨-, -, hfits, -⟩ := s.loadProgram_cases bs
  · simp [hrun, hfree] at hbusy
  · exact e
  · omega

theorem State.loadProgram_of_halted_or_loaded (hbusy : s.status ≠ .running ∨ s.loaded = true) :
    s.loadProgram bs = .refused .loadRefused := by
  obtain ⟨-, e⟩ | ⟨hrun, hfree, -⟩ | ⟨hrun, hfree, -⟩ := s.loadProgram_cases bs
  · exact e
  all_goals simp [hrun, hfree] at hbusy

end

/-- Settles O56: the accepted load with its frame and its bytes, the load that is too long, and the refused one. -/
theorem loadProgramCopiesToTheBase : Obligations.LoadProgramCopiesToTheBase := fun s bs =>
  ⟨fun hrun hfree hlen => ⟨s.withProgram bs, State.loadProgram_of_fits hrun hfree hlen, s.withProgram_changes bs, rfl,
      fun _ h _ => s.readByte_withProgram_of_eq bs h, fun _ => s.readByte_withProgram_of_outside bs⟩,
    State.loadProgram_of_too_long, State.loadProgram_of_halted_or_loaded⟩

end Sys2Proof.Machine
end
